-- ==== Sys2Proof/Word.lean ====
section
/-! DEFINITION. The bit-vector types of the block: widths of 00_scope.md R8 and 10_state.md R26, R43. -/

namespace Sys2Proof

/-- The host bus data width, the width of every control register and of the command word (R8). -/
abbrev Word := BitVec 32

/-- A byte offset from the block's base, 16 bits (R8). -/
abbrev Offset := BitVec 16

/-- One byte of the buffer (R60). -/
abbrev Byte := BitVec 8

/-- A register-index field of the command word, 4 bits, naming `B<index>` (R8, R91). -/
abbrev RegIdx := BitVec 4

end Sys2Proof
end

