-- ==== Sys2Proof/Config.lean ====
section
/-! DEFINITION. What an implementation fixes: the size parameters (00_scope.md R7), the version (R8), the error codes
(60_exceptions.md R240), and the free values of 93_implementation_defined.md (U1 to U3), which have no body. -/

namespace Sys2Proof

/-- The three size parameters of an instance (R7). -/
structure Params where
  /-- `W`, the width in bits of every big-integer register. -/
  w : Nat
  /-- `NREG`, the number of big-integer registers. -/
  nreg : Nat
  /-- `BUFBYTES`, the size in bytes of the byte buffer. -/
  bufBytes : Nat
deriving DecidableEq, Repr

/-- The constraints of R7: `W` a multiple of 32 in [32, 32768], `NREG` in [2, 16], `BUFBYTES` in [1, 4096]. -/
abbrev Params.wf (p : Params) : Prop :=
  p.w % 32 = 0 ∧ 32 ≤ p.w ∧ p.w ≤ 32768 ∧ 2 ≤ p.nreg ∧ p.nreg ≤ 16 ∧ 1 ≤ p.bufBytes ∧ p.bufBytes ≤ 4096

/-- The default instance of R7. -/
def Params.default : Params := { w := 2048, nreg := 16, bufBytes := 1024 }

/-- Hardware version 1, PARAM0.VERSION (R1, R8, R34). -/
def Config.version : Byte := 0x01#8

/-- `BASE`, where the block lies in the host's address space: a parameter that no rule of the block reads (R73, U11). -/
opaque Config.base : Nat

/-- A free value: the byte a host read of BUF gives where the spec leaves it open (R66, U2, U3), by draw number. -/
opaque Config.freeByte : Nat → Byte

/-- A free value: the content of `B<i>` after a reset event (R280, R282, U1, U5), by draw number and register index.
It is taken modulo `2^W` where it is stored. -/
opaque Config.freeReg : Nat → Nat → Nat

/-- The error causes of R240. Codes 10 to 15 are reserved and never raised. -/
inductive ErrorCode where
  | illegalCmd | regRange | bufferRange | encodeOverflow | integerTooLarge
  | plaintextTooLarge | modulusZero | modulusEven | operandNotReduced
deriving DecidableEq, Repr

end Sys2Proof
end

