-- ==== Sys2Proof/Syntax.lean ====
section
/-! DEFINITION. The ten commands of spec/opcode_table.json, with the register fields of their forms (30_encoding.md R92). -/

namespace Sys2Proof

/-- One constructor per row of the opcode map R94. Operands stand in the order of the assembler syntax R100. -/
inductive Instr where
  /-- B2I `rd` (R121). -/
  | b2i (rd : RegIdx)
  /-- I2BFIX `rs1` (R125). -/
  | i2bfix (rs1 : RegIdx)
  /-- I2BMIN `rs1` (R126). -/
  | i2bmin (rs1 : RegIdx)
  /-- ADD `rd, rs1, rs2` (R151). -/
  | add (rd rs1 rs2 : RegIdx)
  /-- SUB `rd, rs1, rs2` (R153). -/
  | sub (rd rs1 rs2 : RegIdx)
  /-- MULLO `rd, rs1, rs2` (R171). -/
  | mullo (rd rs1 rs2 : RegIdx)
  /-- MULHI `rd, rs1, rs2` (R173). -/
  | mulhi (rd rs1 rs2 : RegIdx)
  /-- MONTMUL `rd, rs1, rs2, rs3` (R192). -/
  | montmul (rd rs1 rs2 rs3 : RegIdx)
  /-- MODEXP `rd, rs1, rs2, rs3` (R212). -/
  | modexp (rd rs1 rs2 rs3 : RegIdx)
  /-- MODEXPC `rd, rs1, rs2, rs3` (R214). -/
  | modexpc (rd rs1 rs2 rs3 : RegIdx)
deriving DecidableEq, Repr

end Sys2Proof
end

