-- ==== Sys2Proof/WellFormed.lean ====
section
/-! DEFINITION. Which register fields a command uses, and when all of them name a register of the instance
(30_encoding.md R92, R95, R97). -/

namespace Sys2Proof

/-- The register fields a command's form uses, in the order `rd, rs1, rs2, rs3` in which R95 checks them. -/
def Instr.usedRegs : Instr → List RegIdx
  | .b2i rd => [rd]
  | .i2bfix rs1 => [rs1]
  | .i2bmin rs1 => [rs1]
  | .add rd rs1 rs2 => [rd, rs1, rs2]
  | .sub rd rs1 rs2 => [rd, rs1, rs2]
  | .mullo rd rs1 rs2 => [rd, rs1, rs2]
  | .mulhi rd rs1 rs2 => [rd, rs1, rs2]
  | .montmul rd rs1 rs2 rs3 => [rd, rs1, rs2, rs3]
  | .modexp rd rs1 rs2 rs3 => [rd, rs1, rs2, rs3]
  | .modexpc rd rs1 rs2 rs3 => [rd, rs1, rs2, rs3]

/-- The registers a command reads: the `reads` column of 10_state.md R23. -/
def Instr.sources : Instr → List RegIdx
  | .b2i _ => []
  | .i2bfix rs1 => [rs1]
  | .i2bmin rs1 => [rs1]
  | .add _ rs1 rs2 => [rs1, rs2]
  | .sub _ rs1 rs2 => [rs1, rs2]
  | .mullo _ rs1 rs2 => [rs1, rs2]
  | .mulhi _ rs1 rs2 => [rs1, rs2]
  | .montmul _ rs1 rs2 rs3 => [rs1, rs2, rs3]
  | .modexp _ rs1 rs2 rs3 => [rs1, rs2, rs3]
  | .modexpc _ rs1 rs2 rs3 => [rs1, rs2, rs3]

/-- Every used register field is below `NREG` (R95, R97). -/
abbrev Instr.wf (nreg : Nat) (i : Instr) : Prop := ∀ r ∈ i.usedRegs, r.toNat < nreg

end Sys2Proof
end

