-- ==== Sys2Proof/Decode.lean ====
section
/-! DEFINITION. Decoding and encoding the 32-bit command word (30_encoding.md R90 to R102). -/

namespace Sys2Proof

/-- Field `op`, bits 5:0 (R91). -/
def opField (w : Word) : BitVec 6 := w.extractLsb' 0 6
/-- Field `res0`, bits 7:6, must be 0 (R91). -/
def res0Field (w : Word) : BitVec 2 := w.extractLsb' 6 2
/-- Field `rd`, bits 11:8 (R91). -/
def rdField (w : Word) : RegIdx := w.extractLsb' 8 4
/-- Field `rs1`, bits 15:12 (R91). -/
def rs1Field (w : Word) : RegIdx := w.extractLsb' 12 4
/-- Field `rs2`, bits 19:16 (R91). -/
def rs2Field (w : Word) : RegIdx := w.extractLsb' 16 4
/-- Field `rs3`, bits 23:20 (R91). -/
def rs3Field (w : Word) : RegIdx := w.extractLsb' 20 4
/-- Field `res1`, bits 31:24, must be 0 (R91). -/
def res1Field (w : Word) : Byte := w.extractLsb' 24 8

/-- A decoded command when the fields its form does not use are all 0, else ILLEGAL_CMD (R92, R95, R96). -/
def whenUnusedZero (unused : List RegIdx) (i : Instr) : Except ErrorCode Instr :=
  if ∀ f ∈ unused, f = 0#4 then .ok i else .error .illegalCmd

/-- The ILLEGAL_CMD checks of R95, in its order: reserved fields, opcode, unused register fields. Total on every word.
R95's last check, REG_RANGE, depends on `NREG` and is `decodeCommand`. -/
def decode (w : Word) : Except ErrorCode Instr :=
  if res0Field w ≠ 0#2 ∨ res1Field w ≠ 0#8 then .error .illegalCmd
  else if opField w = 0x01#6 then whenUnusedZero [rs1Field w, rs2Field w, rs3Field w] (.b2i (rdField w))
  else if opField w = 0x02#6 then whenUnusedZero [rdField w, rs2Field w, rs3Field w] (.i2bfix (rs1Field w))
  else if opField w = 0x03#6 then whenUnusedZero [rdField w, rs2Field w, rs3Field w] (.i2bmin (rs1Field w))
  else if opField w = 0x04#6 then whenUnusedZero [rs3Field w] (.add (rdField w) (rs1Field w) (rs2Field w))
  else if opField w = 0x05#6 then whenUnusedZero [rs3Field w] (.sub (rdField w) (rs1Field w) (rs2Field w))
  else if opField w = 0x06#6 then whenUnusedZero [rs3Field w] (.mullo (rdField w) (rs1Field w) (rs2Field w))
  else if opField w = 0x07#6 then whenUnusedZero [rs3Field w] (.mulhi (rdField w) (rs1Field w) (rs2Field w))
  else if opField w = 0x08#6 then .ok (.montmul (rdField w) (rs1Field w) (rs2Field w) (rs3Field w))
  else if opField w = 0x09#6 then .ok (.modexp (rdField w) (rs1Field w) (rs2Field w) (rs3Field w))
  else if opField w = 0x0A#6 then .ok (.modexpc (rdField w) (rs1Field w) (rs2Field w) (rs3Field w))
  else .error .illegalCmd

/-- The whole function `decode` of R95 for an instance with `nreg` registers: ILLEGAL_CMD first, then REG_RANGE. -/
def decodeCommand (nreg : Nat) (w : Word) : Except ErrorCode Instr :=
  match decode w with
  | .error e => .error e
  | .ok i => if i.wf nreg then .ok i else .error .regRange

/-- Assembles a word by the pattern string of R91: `00000000 3333 2222 1111 dddd 00 oooooo`. -/
def packWord (op : BitVec 6) (rd rs1 rs2 rs3 : RegIdx) : Word :=
  0#8 ++ rs3 ++ rs2 ++ rs1 ++ rd ++ 0#2 ++ op

/-- The word of a command: the opcodes of R94 and the words of R100. -/
def encode : Instr → Word
  | .b2i rd => packWord 0x01#6 rd 0#4 0#4 0#4
  | .i2bfix rs1 => packWord 0x02#6 0#4 rs1 0#4 0#4
  | .i2bmin rs1 => packWord 0x03#6 0#4 rs1 0#4 0#4
  | .add rd rs1 rs2 => packWord 0x04#6 rd rs1 rs2 0#4
  | .sub rd rs1 rs2 => packWord 0x05#6 rd rs1 rs2 0#4
  | .mullo rd rs1 rs2 => packWord 0x06#6 rd rs1 rs2 0#4
  | .mulhi rd rs1 rs2 => packWord 0x07#6 rd rs1 rs2 0#4
  | .montmul rd rs1 rs2 rs3 => packWord 0x08#6 rd rs1 rs2 rs3
  | .modexp rd rs1 rs2 rs3 => packWord 0x09#6 rd rs1 rs2 rs3
  | .modexpc rd rs1 rs2 rs3 => packWord 0x0A#6 rd rs1 rs2 rs3

/-- The command word `w` of a table row, as the host's probe numbers its bits; the bus carries a command word whole
(R69, R90), so the layout is the word itself. -/
def tableWord (nbits w : Nat) : Word := BitVec.ofNat 32 (w % 2 ^ nbits)

/-- What the decoder reads from a table row's word; none where it refuses. -/
def decodeTableWord (nbits w : Nat) : Option Instr := (decode (tableWord nbits w)).toOption

/-- The match value and the mask of a command, the columns `match` and `mask` of opcode_table.json (R94): every bit is
fixed except the register fields the form uses. -/
def Instr.matchMask : Instr → Word × Word
  | .b2i _ => (0x00000001#32, 0xFFFFF0FF#32)
  | .i2bfix _ => (0x00000002#32, 0xFFFF0FFF#32)
  | .i2bmin _ => (0x00000003#32, 0xFFFF0FFF#32)
  | .add _ _ _ => (0x00000004#32, 0xFFF000FF#32)
  | .sub _ _ _ => (0x00000005#32, 0xFFF000FF#32)
  | .mullo _ _ _ => (0x00000006#32, 0xFFF000FF#32)
  | .mulhi _ _ _ => (0x00000007#32, 0xFFF000FF#32)
  | .montmul _ _ _ _ => (0x00000008#32, 0xFF0000FF#32)
  | .modexp _ _ _ _ => (0x00000009#32, 0xFF0000FF#32)
  | .modexpc _ _ _ _ => (0x0000000A#32, 0xFF0000FF#32)

/-- The mnemonic of R94. -/
def Instr.mnemonic : Instr → String
  | .b2i _ => "B2I"
  | .i2bfix _ => "I2BFIX"
  | .i2bmin _ => "I2BMIN"
  | .add _ _ _ => "ADD"
  | .sub _ _ _ => "SUB"
  | .mullo _ _ _ => "MULLO"
  | .mulhi _ _ _ => "MULHI"
  | .montmul _ _ _ _ => "MONTMUL"
  | .modexp _ _ _ _ => "MODEXP"
  | .modexpc _ _ _ _ => "MODEXPC"

/-- The operands in the assembler's spelling: `b0` to `b15`, separated by commas (R100). -/
def asmOperands : List RegIdx → String
  | [] => ""
  | [r] => " b" ++ toString r.toNat
  | r :: rs => " b" ++ toString r.toNat ++ "," ++ asmOperands rs

/-- The mnemonic as the assembler writes it, lower-case (R100). -/
def Instr.asmName : Instr → String
  | .b2i _ => "b2i"
  | .i2bfix _ => "i2bfix"
  | .i2bmin _ => "i2bmin"
  | .add _ _ _ => "add"
  | .sub _ _ _ => "sub"
  | .mullo _ _ _ => "mullo"
  | .mulhi _ _ _ => "mulhi"
  | .montmul _ _ _ _ => "montmul"
  | .modexp _ _ _ _ => "modexp"
  | .modexpc _ _ _ _ => "modexpc"

/-- A command in assembler syntax (R100): lower-case mnemonic, operands with the destination first. -/
def Instr.asm (i : Instr) : String := i.asmName ++ asmOperands i.usedRegs

end Sys2Proof
end

