-- ==== Sys2Proof/Machine/Numbers.lean ====
section
/-! DEFINITION. The functions on natural numbers that the command rules use (00_scope.md R10, R11, R13;
43_montgomery.md R190, R191; 44_modexp.md R211). -/

namespace Sys2Proof.Machine

/-- `bitlen(v)`: 0 for 0, else the `k` with `2^(k-1) <= v < 2^k` (R11). -/
def bitlen (v : Nat) : Nat := if v = 0 then 0 else Nat.log2 v + 1

/-- `minlen(v)`: the length in bytes of the shortest big-endian byte string whose value is `v` (R11). -/
def minlen (v : Nat) : Nat := (bitlen v + 7) / 8

/-- `v[i]` on a number (R11). -/
def bitAt (v i : Nat) : Nat := v / 2 ^ i % 2

/-- `MemRead(a, n)` over a byte-reading function: the number whose big-endian bytes stand at `a, ..., a+n-1` (R13). -/
def readBE (byteAt : Nat → Byte) : Nat → Nat → Nat
  | _, 0 => 0
  | a, n + 1 => (byteAt a).toNat * 256 ^ n + readBE byteAt (a + 1) n

/-- The byte `MemWrite(a, n, v)` puts at index `a + i`: `(v div 256^(n-1-i)) mod 256` (R13). -/
def byteBE (n v i : Nat) : Byte := BitVec.ofNat 8 (v / 256 ^ (n - 1 - i))

/-- `count` rounds of the loop of R211, from bit `i` of `e` on. -/
def modexpLoop (e n : Nat) : (count i acc base : Nat) → Nat
  | 0, _, acc, _ => acc
  | count + 1, i, acc, base =>
    modexpLoop e n count (i + 1) (if bitAt e i = 1 then acc * base % n else acc) (base * base % n)

/-- `modexp(b, e, n)` (R211): the accumulator starts at `1 mod n`, the base at `b mod n`. -/
def modexp (b e n : Nat) : Nat := modexpLoop e n (bitlen e) 0 (1 % n) (b % n)

/-- `Rinv` for the radix `R = 2^w` and an odd modulus (R190). R190 defines it as the unique inverse of `R` modulo `n` in
`[0, n)`. DEDUCED: `(n+1)/2` is the inverse of 2 modulo an odd `n`, so its `w`-th power is that value (log entry 13). -/
def montRinv (w n : Nat) : Nat := modexp ((n + 1) / 2) w n

/-- `mont(a, b, n) = (a * b * Rinv) mod n` (R191). -/
def mont (w a b n : Nat) : Nat := a * b * montRinv w n % n

end Sys2Proof.Machine
end

