-- ==== Sys2Proof/Machine/State.lean ====
section
/-! DEFINITION. The state of one RSA CORE instance as plain data (10_state.md R20, R43), the events that can happen to it,
and the state right after reset (R42). -/

namespace Sys2Proof.Machine

/-- Why a state carries the model's fault mark (R22, R249). No step answers `.fault`: the block has no traps (R252) and
every host transaction is total (R291). -/
inductive Fault where
  /-- UNWRITTEN_READ, naming the command (R22). Recorded in `State.fault` by an engine step whose command reads a register
  or a buffer byte not written since reset; kept until reset (R249). The command does not compute (R22), and the step answers
  a next state that carries the mark. Safe for a claim that asks for a state without the mark (R298), unsafe for one that
  does not, since the hardware computes (log entry 5). -/
  | unwrittenRead (command : Instr)
deriving DecidableEq, Repr

/-- Why a command is refused by the model. -/
inductive Refusal where
  /-- Raised by `exec` for a command of the opcode table that has no meaning in this model. Safe. No arm raises it. -/
  | notModelled (mnemonic : String)
deriving DecidableEq, Repr

/-- One big-integer register: its value below `2^W` (R12, R21) and the model's `written_B` bit (R22). -/
structure BReg where
  val : Nat
  written : Bool
deriving DecidableEq, Repr

/-- The in-flight command latch: the accepted word CMDLAT and ARGLAT, the value of ARG at acceptance (R39). -/
structure Latch where
  cmd : Word
  arg : Word
deriving DecidableEq, Repr

/-- The size of a bus transaction, one byte or four (R62, R63). -/
inductive Size where
  | one | four
deriving DecidableEq, Repr

/-- One host bus transaction (R63). -/
inductive Txn where
  /-- `HostWrite(addr, size, data)`. -/
  | write (addr : Offset) (size : Size) (data : Word)
  /-- `HostRead(addr, size)`. -/
  | read (addr : Offset) (size : Size)
deriving DecidableEq, Repr

/-- What can happen next at the block: a step of one of the two agents (R18, R75) or reset (R280, R282). -/
inductive Event where
  /-- A step of the host: one transaction (R291). -/
  | host (t : Txn)
  /-- The engine's step, enabled when a command is in flight (R290). -/
  | engine
  /-- A rising clock edge with `rst_n = 0`, perhaps with a transaction presented on the bus (R280). -/
  | reset (presented : Option Txn)
deriving DecidableEq, Repr

/-- The byte buffer: the written bytes, by buffer index, strictly rising. A byte is listed exactly when its `written_BUF`
bit is true (R22), and an unlisted byte has no value of its own (R42: unspecified). -/
abbrev Memory := List Host.Cell

/-- What `BUF[a]` reads as when it is not listed: no value. -/
def Memory.unlisted : Option Byte := none

/-- The state record of R43, its parameters held as data, and three fields of the model's own. -/
structure State where
  /-- `W`, `NREG`, `BUFBYTES` (R7): fixed, read by software in PARAM0 and PARAM1 (R34, R35). -/
  par : Params
  /-- `B0` to `B<NREG-1>` with their `written_B` bits (R21, R22). -/
  regs : List BReg
  /-- BUF with its `written_BUF` bits (R22, R60). -/
  buf : Memory
  /-- STATUS.BUSY (R26, R27). -/
  busy : Bool
  /-- STATUS.DONE (R26, R28). -/
  done : Bool
  /-- STATUS.ERR (R26, R29). -/
  err : Bool
  /-- STATUS.OVR (R26, R30). -/
  ovr : Bool
  /-- STATUS.C, carry or borrow (R26, R31). -/
  c : Bool
  /-- CTRL.IE (R37). -/
  ie : Bool
  /-- STATUS.ERRCODE (R26, R29). -/
  errcode : BitVec 4
  /-- ARG (R33). -/
  arg : Word
  /-- RESLEN bits 15:0 (R36). -/
  reslen : BitVec 16
  /-- The in-flight command latch (R39). -/
  inflight : Option Latch
  /-- The model's fault mark (R22, R249). -/
  fault : Option Fault
  /-- The model's own: the events to come, oldest first. Its order is the interleaving of R75. -/
  schedule : List Event
  /-- The model's own: the values the host read, newest first (R298). -/
  reads : List Word
  /-- The model's own: numbers the free values. -/
  draws : Nat
deriving DecidableEq, Repr

/-- An instance right after reset: every control field as R42 says, B and BUF never written. R42 gives the stored bits of
`B<i>` no value; DESIGN CHOICE: 0 (log entry 2, unsafe). -/
def State.resetFor (p : Params) : State :=
  { par := p, regs := List.replicate p.nreg { val := 0, written := false }, buf := [],
    busy := false, done := false, err := false, ovr := false, c := false, ie := false,
    errcode := 0#4, arg := 0#32, reslen := 0#16, inflight := none, fault := none,
    schedule := [], reads := [], draws := 0 }

/-- The default instance right after reset (R7, R42). -/
def State.reset : State := State.resetFor Params.default

end Sys2Proof.Machine
end

