-- ==== Sys2Proof/Machine/Ops.lean ====
section
/-! DEFINITION. The named operations over registers, buffer and command outcome (00_scope.md R12 to R14). -/

namespace Sys2Proof.Machine

/-! ### The buffer as a list of written bytes -/

/-- The byte listed at index `a`, if any. -/
def Memory.read : Memory → Nat → Option Byte
  | [], _ => Memory.unlisted
  | (b, v) :: m, a => if b = a then some v else Memory.read m a

/-- Write one byte, keeping the list strictly rising. -/
def Memory.write : Memory → Nat → Byte → Memory
  | [], a, v => [(a, v)]
  | (b, u) :: m, a, v =>
    if a < b then (a, v) :: (b, u) :: m
    else if a = b then (a, v) :: m
    else (b, u) :: Memory.write m a v

/-- `MemWrite(a, n, v)`: `n` bytes of `v`, big-endian, from index `a` (R13, R68). -/
def Memory.writeBE (m : Memory) (a n v : Nat) : Memory :=
  (List.range n).foldl (fun acc i => Memory.write acc (a + i) (byteBE n v i)) m

/-- The canonical form: strictly rising indexes. An unlisted byte has no value, so no entry can equal it. -/
abbrev Memory.wf (m : Memory) : Prop := m.Pairwise (fun p q => p.1 < q.1)

/-! ### Reading state -/

/-- `x[i]`, the value of `B<i>` (R12). -/
def State.x (s : State) (i : RegIdx) : Nat := (s.regs.getD i.toNat { val := 0, written := false }).val

/-- `written_B[i]` (R22). -/
def State.writtenB (s : State) (i : RegIdx) : Bool := (s.regs.getD i.toNat { val := 0, written := false }).written

/-- `written_BUF[a]` (R22): the byte is listed. -/
def State.writtenBuf (s : State) (a : Nat) : Bool := (Memory.read s.buf a).isSome

/-- `BUF[a]`; a byte never written since reset is a free value (R66, U2; log entry 4), which only a host read can give: a
command does not compute from it (R22). -/
def State.bufByte (s : State) (a : Nat) : Byte := (Memory.read s.buf a).getD (Config.freeByte (s.draws + a))

/-- `MemRead(a, n)` (R13). -/
def State.memRead (s : State) (a n : Nat) : Nat := readBE s.bufByte a n

/-! ### Writing state -/

/-- `x[i] <- v`, which sets `written_B[i]` (R12). -/
def State.setX (s : State) (i : RegIdx) (v : Nat) : State :=
  { s with regs := s.regs.set i.toNat { val := v, written := true } }

/-- `MemWrite(a, n, v)` (R13). -/
def State.memWrite (s : State) (a n v : Nat) : State := { s with buf := Memory.writeBE s.buf a n v }

/-- `STATUS.C <- b` (R31). -/
def State.setC (s : State) (b : Bool) : State := { s with c := b }

/-- `RESLEN <- n` (R36). -/
def State.setReslen (s : State) (n : Nat) : State := { s with reslen := BitVec.ofNat 16 n }

/-! ### The fault mark UNWRITTEN_READ -/

/-- Record UNWRITTEN_READ naming command `i`; a mark already there stays (R22, R249; log entry 6). -/
def State.markUnwritten (s : State) (i : Instr) : State := { s with fault := s.fault.or (some (.unwrittenRead i)) }

/-- All of `BUF[a], ..., BUF[a+n-1]` have been written since reset (R22). -/
def State.bufWritten (s : State) (a n : Nat) : Bool := (List.range n).all (fun k => s.writtenBuf (a + k))

/-- All source registers of command `i` have been written since reset (R22). -/
def State.regsWritten (s : State) (i : Instr) : Bool := i.sources.all s.writtenB

/-- Number the next free values: one for each buffer byte. -/
def State.nextDraws (s : State) : State := { s with draws := s.draws + s.par.bufBytes }

/-! ### The outcome of a command -/

/-- The code of an error, in STATUS.ERRCODE (R240). -/
def errorBits : ErrorCode → BitVec 4
  | .illegalCmd => 1#4
  | .regRange => 2#4
  | .bufferRange => 3#4
  | .encodeOverflow => 4#4
  | .integerTooLarge => 5#4
  | .plaintextTooLarge => 6#4
  | .modulusZero => 7#4
  | .modulusEven => 8#4
  | .operandNotReduced => 9#4

/-- `complete` (R14, R27): BUSY <- 0, DONE <- 1, and the latch is emptied (R290). ERR and ERRCODE keep the 0 they got at
acceptance (R29). -/
def State.complete (s : State) : State := { s with busy := false, done := true, inflight := none }

/-- `raise Error(code)` (R14, R241), the block's one exception entry: the command ends with ERR and ERRCODE written,
BUSY <- 0, DONE <- 1; no register, buffer byte, C or RESLEN is written. There is no return from it (R253). -/
def State.raise (s : State) (e : ErrorCode) : State :=
  { s with busy := false, done := true, err := true, errcode := errorBits e, inflight := none }

/-- Command `i` read storage not written since reset: it does not compute, and the fault UNWRITTEN_READ naming it is recorded
(R22, R249). No register, buffer byte, C or RESLEN is written. DESIGN CHOICE: the engine's step still ends the command, with
ERR and ERRCODE as acceptance left them (log entry 5). -/
def State.leaveUncomputed (s : State) (i : Instr) : State := (s.markUnwritten i).complete

/-- What command `i` does to `s` once it has read storage that is `written`: `computed`, or it does not compute (R22). -/
def State.whenWritten (s : State) (written : Bool) (i : Instr) (computed : State) : State :=
  if written then computed else s.leaveUncomputed i

end Sys2Proof.Machine
end

