-- ==== Sys2Proof/Machine/Operands.lean ====
section
/-! DEFINITION. Operand forms (30_encoding.md R92, R93) and the frame every command runs in. -/

namespace Sys2Proof.Machine

/-- ARGLAT, the ARG value latched at acceptance (R39, R93). With nothing in flight no engine step runs a command; the
operation then gives ARG itself, what an acceptance would latch (log entry 10). -/
def State.argLat (s : State) : Word :=
  match s.inflight with
  | some l => l.arg
  | none => s.arg

/-- `A = ARGLAT[15:0]`, zero-extended (R93). -/
def State.argAddr (s : State) : Nat := (s.argLat.extractLsb' 0 16).toNat

/-- `L = ARGLAT[31:16]`, zero-extended (R93). -/
def State.argLen (s : State) : Nat := (s.argLat.extractLsb' 16 16).toNat

/-- `2^W`, the bound of every register value (R12). -/
def State.bound (s : State) : Nat := 2 ^ s.par.w

/-- What every command does around its own rule: the REG_RANGE check that ends R95 (R97, R243); then the source registers
are read, and with one not written since reset the command does not compute (R22, R247); then `body`, the command's own rule.
A command always ends in a next state (R215, R290; log entry 5). -/
def runCommand (i : Instr) (s : State) (body : State → State) : Host.Outcome State Fault Refusal :=
  if i.wf s.par.nreg then .next (s.whenWritten (s.regsWritten i) i (body s)) else .next (s.raise .regRange)

/-- The conversion range check: `A + n > BUFBYTES`, the sum exact (R80). -/
abbrev State.beyondBuffer (s : State) (a n : Nat) : Prop := s.par.bufBytes < a + n

end Sys2Proof.Machine
end

