-- ==== Sys2Proof/Machine/Flags.lean ====
section
/-! DEFINITION. STATUS.C (10_state.md R31), the words software reads from the control registers (R26 to R37), and the
completion interrupt (60_exceptions.md R250). -/

namespace Sys2Proof.Machine

/-- The carry out of bit `W-1`: `s div 2^W` for the exact sum `s < 2^(W+1)` (R151). -/
def carryOut (w a b : Nat) : Bool := decide ((a + b) / 2 ^ w = 1)

/-- The borrow of `a - b`: 1 exactly when `a < b` (R153). -/
def borrowOut (a b : Nat) : Bool := decide (a < b)

/-- The value a read of STATUS returns (R26): BUSY 0, DONE 1, ERR 2, OVR 3, C 4, reserved 7:5, ERRCODE 11:8, reserved. -/
def State.statusWord (s : State) : Word :=
  0#20 ++ s.errcode ++ 0#3 ++ BitVec.ofBool s.c ++ BitVec.ofBool s.ovr ++ BitVec.ofBool s.err ++
    BitVec.ofBool s.done ++ BitVec.ofBool s.busy

/-- The value a read of RESLEN returns (R36). -/
def State.reslenWord (s : State) : Word := 0#16 ++ s.reslen

/-- The value a read of CTRL returns (R37). -/
def State.ctrlWord (s : State) : Word := 0#31 ++ BitVec.ofBool s.ie

/-- PARAM0 (R34): `W` in 15:0, `NREG` in 23:16, VERSION in 31:24. -/
def State.param0 (s : State) : Word := Config.version ++ BitVec.ofNat 8 s.par.nreg ++ BitVec.ofNat 16 s.par.w

/-- PARAM1 (R35): `BUFBYTES` in 15:0. -/
def State.param1 (s : State) : Word := 0#16 ++ BitVec.ofNat 16 s.par.bufBytes

/-- `irq = CTRL.IE and STATUS.DONE`, a level (R250). -/
def State.irq (s : State) : Bool := s.ie && s.done

end Sys2Proof.Machine
end

