-- ==== Sys2Proof/Machine/Bus.lean ====
section
/-! DEFINITION. The host's step: one bus transaction (20_memory.md R63 to R69), and the effect of each register write
(10_state.md R26 to R38). Every transaction is total: misuse is RAZ/WI or a discard with OVR (R291). -/

namespace Sys2Proof.Machine

/-- `HostWrite`/`HostRead` offsets of the register map (R25). -/
def offCmd : Offset := 0x0000#16
def offStatus : Offset := 0x0004#16
def offArg : Offset := 0x0008#16
def offReslen : Offset := 0x000C#16
def offCtrl : Offset := 0x0010#16
def offParam0 : Offset := 0x0014#16
def offParam1 : Offset := 0x0018#16

/-- Acceptance of a command word (R27): the word is latched with the current ARG, BUSY <- 1, DONE, ERR, ERRCODE <- 0. -/
def State.accept (s : State) (w : Word) : State :=
  { s with busy := true, done := false, err := false, errcode := 0#4, inflight := some { cmd := w, arg := s.arg } }

/-- A CMD, ARG or BUF write while BUSY = 1: discarded, OVR <- 1 (R30). -/
def State.overrun (s : State) : State := { s with ovr := true }

/-- A CMD write (R27, R32). -/
def State.writeCmd (s : State) (w : Word) : State := if s.busy then s.overrun else s.accept w

/-- A STATUS write (R26): bit 1 clears DONE, bit 3 clears OVR, whether or not BUSY. -/
def State.writeStatus (s : State) (d : Word) : State :=
  { s with done := s.done && !d.getLsbD 1, ovr := s.ovr && !d.getLsbD 3 }

/-- An ARG write (R33). -/
def State.writeArg (s : State) (d : Word) : State := if s.busy then s.overrun else { s with arg := d }

/-- A CTRL write (R37): bit 0 is IE, whether or not BUSY. -/
def State.writeCtrl (s : State) (d : Word) : State := { s with ie := d.getLsbD 0 }

/-- A one-byte write of `BUF[a]`, `a < BUFBYTES` (R65). -/
def State.writeBuf (s : State) (a : Nat) (d : Word) : State :=
  if s.busy then s.overrun else { s with buf := Memory.write s.buf a (d.extractLsb' 0 8) }

/-- The effect of a four-byte write in the register region; a read-only or reserved offset, or a misaligned one, is
ignored (R38, R64). -/
def State.writeRegister (s : State) (addr : Offset) (d : Word) : State :=
  if addr = offCmd then s.writeCmd d
  else if addr = offStatus then s.writeStatus d
  else if addr = offArg then s.writeArg d
  else if addr = offCtrl then s.writeCtrl d
  else s

/-- The value of a four-byte read in the register region; CMD, a reserved or a misaligned offset reads 0 (R32, R64). -/
def State.readRegister (s : State) (addr : Offset) : Word :=
  if addr = offStatus then s.statusWord
  else if addr = offArg then s.arg
  else if addr = offReslen then s.reslenWord
  else if addr = offCtrl then s.ctrlWord
  else if addr = offParam0 then s.param0
  else if addr = offParam1 then s.param1
  else 0#32

/-- Where an offset leads (R63): register region, buffer window, otherwise reserved. -/
inductive Region where
  | registers
  | window (a : Nat)
  | reserved
deriving DecidableEq, Repr

/-- The region of an offset; in the window, the buffer index `addr - 0x1000` (R60, R63, R64, R67). -/
def regionOf (addr : Offset) : Region :=
  if addr.toNat < 0x1000 then .registers
  else if addr.toNat < 0x2000 then .window (addr.toNat - 0x1000)
  else .reserved

/-- `HostWrite(addr, size, data)` (R63 to R67). -/
def hostWrite (addr : Offset) (size : Size) (data : Word) (s : State) : State :=
  match regionOf addr, size with
  | .registers, .four => s.writeRegister addr data
  | .window a, .one => if a < s.par.bufBytes then s.writeBuf a data else s
  | _, _ => s

/-- The byte a one-byte read of `BUF[a]` returns (R66): the stored byte when idle and written, else a free value. -/
def State.hostByte (s : State) (a : Nat) : Byte := if s.busy then Config.freeByte (s.draws + a) else s.bufByte a

/-- A one-byte read of `BUF[a]` gives a value the spec leaves open (R66, U2, U3). -/
def State.openRead (s : State) (a : Nat) : Bool := s.busy || !s.writtenBuf a

/-- The value of `HostRead(addr, size)` (R63 to R67, R69). -/
def hostRead (addr : Offset) (size : Size) (s : State) : Word :=
  match regionOf addr, size with
  | .registers, .four => s.readRegister addr
  | .window a, .one => if a < s.par.bufBytes then (s.hostByte a).setWidth 32 else 0#32
  | _, _ => 0#32

/-- A read changes no state of the block (R66, R72); the model numbers its next free values when it used one. -/
def State.afterRead (s : State) (addr : Offset) (size : Size) : State :=
  match regionOf addr, size with
  | .window a, .one => if a < s.par.bufBytes && s.openRead a then s.nextDraws else s
  | _, _ => s

/-- The host observes a value it read (R298). -/
def State.observe (s : State) (v : Word) : State := { s with reads := v :: s.reads }

/-- The host's step: one transaction (R291). -/
def hostStep (t : Txn) (s : State) : State :=
  match t with
  | .write addr size data => hostWrite addr size data s
  | .read addr size => (s.afterRead addr size).observe (hostRead addr size s)

end Sys2Proof.Machine
end

