-- ==== Sys2Proof/Machine/Adder.lean ====
section
/-! DEFINITION. The arbitrary-precision adder (41_adder.md). -/

namespace Sys2Proof.Machine

/-- ADD (R151): the exact sum modulo `2^W`, carry out to C. -/
def execAdd (rd rs1 rs2 : RegIdx) (s : State) : Host.Outcome State Fault Refusal :=
  runCommand (.add rd rs1 rs2) s fun s =>
    ((s.setX rd ((s.x rs1 + s.x rs2) % s.bound)).setC (carryOut s.par.w (s.x rs1) (s.x rs2))).complete

/-- SUB (R153): `a - b`, or `a + 2^W - b` when that would be negative; borrow to C. -/
def execSub (rd rs1 rs2 : RegIdx) (s : State) : Host.Outcome State Fault Refusal :=
  runCommand (.sub rd rs1 rs2) s fun s =>
    let d := if s.x rs2 ≤ s.x rs1 then s.x rs1 - s.x rs2 else s.x rs1 + s.bound - s.x rs2
    ((s.setX rd d).setC (borrowOut (s.x rs1) (s.x rs2))).complete

end Sys2Proof.Machine
end

