-- ==== Sys2Proof/Machine/Codec.lean ====
section
/-! DEFINITION. The byte/integer converters (40_codec.md). -/

namespace Sys2Proof.Machine

/-- B2I (R121): BUFFER_RANGE, then the bytes are read, and with one not written since reset nothing is computed (R22, R247);
then ENCODE_OVERFLOW, then `x[rd] <- MemRead(A, L)`. -/
def execB2i (rd : RegIdx) (s : State) : Host.Outcome State Fault Refusal :=
  runCommand (.b2i rd) s fun s =>
    if s.beyondBuffer s.argAddr s.argLen then s.raise .bufferRange
    else
      let v := s.memRead s.argAddr s.argLen
      s.whenWritten (s.bufWritten s.argAddr s.argLen) (.b2i rd)
        (if s.bound ≤ v then s.raise .encodeOverflow else (s.setX rd v).complete)

/-- I2BFIX (R125): BUFFER_RANGE, then INTEGER_TOO_LARGE, then `MemWrite(A, L, v)` and `RESLEN <- L`. -/
def execI2bfix (rs1 : RegIdx) (s : State) : Host.Outcome State Fault Refusal :=
  runCommand (.i2bfix rs1) s fun s =>
    if s.beyondBuffer s.argAddr s.argLen then s.raise .bufferRange
    else if s.argLen < minlen (s.x rs1) then s.raise .integerTooLarge
    else ((s.memWrite s.argAddr s.argLen (s.x rs1)).setReslen s.argLen).complete

/-- I2BMIN (R126): `k = minlen(v)`, BUFFER_RANGE, then `MemWrite(A, k, v)` and `RESLEN <- k`. ARGLAT.LEN is ignored. -/
def execI2bmin (rs1 : RegIdx) (s : State) : Host.Outcome State Fault Refusal :=
  runCommand (.i2bmin rs1) s fun s =>
    if s.beyondBuffer s.argAddr (minlen (s.x rs1)) then s.raise .bufferRange
    else ((s.memWrite s.argAddr (minlen (s.x rs1)) (s.x rs1)).setReslen (minlen (s.x rs1))).complete

end Sys2Proof.Machine
end

