-- ==== Sys2Proof/Machine/Modexp.lean ====
section
/-! DEFINITION. The modular exponentiation engine (44_modexp.md). -/

namespace Sys2Proof.Machine

/-- MODEXP (R212): MODULUS_ZERO, then `x[rd] <- modexp(b, e, n)`. -/
def execModexp (rd rs1 rs2 rs3 : RegIdx) (s : State) : Host.Outcome State Fault Refusal :=
  runCommand (.modexp rd rs1 rs2 rs3) s fun s =>
    if s.x rs3 = 0 then s.raise .modulusZero
    else (s.setX rd (modexp (s.x rs1) (s.x rs2) (s.x rs3))).complete

/-- MODEXPC (R214): PLAINTEXT_TOO_LARGE when `m >= n`, then `x[rd] <- modexp(m, e, n)`. -/
def execModexpc (rd rs1 rs2 rs3 : RegIdx) (s : State) : Host.Outcome State Fault Refusal :=
  runCommand (.modexpc rd rs1 rs2 rs3) s fun s =>
    if s.x rs3 ≤ s.x rs1 then s.raise .plaintextTooLarge
    else (s.setX rd (modexp (s.x rs1) (s.x rs2) (s.x rs3))).complete

end Sys2Proof.Machine
end

