-- ==== Sys2Proof/Machine/Montgomery.lean ====
section
/-! DEFINITION. The Montgomery multiplier (43_montgomery.md). -/

namespace Sys2Proof.Machine

/-- MONTMUL (R192): MODULUS_EVEN, then OPERAND_NOT_REDUCED, then `x[rd] <- mont(a, b, n)`. -/
def execMontmul (rd rs1 rs2 rs3 : RegIdx) (s : State) : Host.Outcome State Fault Refusal :=
  runCommand (.montmul rd rs1 rs2 rs3) s fun s =>
    if s.x rs3 % 2 = 0 then s.raise .modulusEven
    else if s.x rs3 ≤ s.x rs1 ∨ s.x rs3 ≤ s.x rs2 then s.raise .operandNotReduced
    else (s.setX rd (mont s.par.w (s.x rs1) (s.x rs2) (s.x rs3))).complete

end Sys2Proof.Machine
end

