-- ==== Sys2Proof/Machine/Multiplier.lean ====
section
/-! DEFINITION. The arbitrary-precision multiplier (42_multiplier.md). -/

namespace Sys2Proof.Machine

/-- MULLO (R171): bits `W-1:0` of the exact product. -/
def execMullo (rd rs1 rs2 : RegIdx) (s : State) : Host.Outcome State Fault Refusal :=
  runCommand (.mullo rd rs1 rs2) s fun s => (s.setX rd (s.x rs1 * s.x rs2 % s.bound)).complete

/-- MULHI (R173): bits `2W-1:W` of the exact product. -/
def execMulhi (rd rs1 rs2 : RegIdx) (s : State) : Host.Outcome State Fault Refusal :=
  runCommand (.mulhi rd rs1 rs2) s fun s => (s.setX rd (s.x rs1 * s.x rs2 / s.bound)).complete

end Sys2Proof.Machine
end

