-- ==== Sys2Proof/Machine/Dispatch.lean ====
section
/-! DEFINITION. One arm per command of the opcode map (30_encoding.md R94). -/

namespace Sys2Proof.Machine

def exec (i : Instr) (s : State) : Host.Outcome State Fault Refusal :=
  match i with
  | .b2i rd => Sys2Proof.Machine.execB2i rd s
  | .i2bfix rs1 => Sys2Proof.Machine.execI2bfix rs1 s
  | .i2bmin rs1 => Sys2Proof.Machine.execI2bmin rs1 s
  | .add rd rs1 rs2 => Sys2Proof.Machine.execAdd rd rs1 rs2 s
  | .sub rd rs1 rs2 => Sys2Proof.Machine.execSub rd rs1 rs2 s
  | .mullo rd rs1 rs2 => Sys2Proof.Machine.execMullo rd rs1 rs2 s
  | .mulhi rd rs1 rs2 => Sys2Proof.Machine.execMulhi rd rs1 rs2 s
  | .montmul rd rs1 rs2 rs3 => Sys2Proof.Machine.execMontmul rd rs1 rs2 rs3 s
  | .modexp rd rs1 rs2 rs3 => Sys2Proof.Machine.execModexp rd rs1 rs2 rs3 s
  | .modexpc rd rs1 rs2 rs3 => Sys2Proof.Machine.execModexpc rd rs1 rs2 rs3 s

end Sys2Proof.Machine
end

