-- ==== Sys2Proof/Machine/Engine.lean ====
section
/-! DEFINITION. The engine's step (70_reset_and_hazards.md R290). -/

namespace Sys2Proof.Machine

/-- The engine step: decode the latched word (R95), run the command's rule. An illegal word completes with its error
(R242). With no command in flight the step is not enabled and nothing changes (R290; log entry 18). -/
def engineStep (s : State) : Host.Outcome State Fault Refusal :=
  match s.inflight with
  | none => .next s
  | some l =>
    match decode l.cmd with
    | .error e => .next (s.raise e)
    | .ok i => exec i s

/-- The state in which the command word `w` has been accepted and the engine steps next. -/
def State.issue (s : State) (w : Word) : State :=
  { s.accept w with schedule := .engine :: s.schedule }

end Sys2Proof.Machine
end

