-- ==== Sys2Proof/Machine/ResetStep.lean ====
section
/-! DEFINITION. Reset as a step (70_reset_and_hazards.md R280, R282). -/

namespace Sys2Proof.Machine

/-- Register `i` after a reset event: arbitrary content below `2^W`, never written (R280, R282, U1, U5). -/
def resetReg (s : State) (i : Nat) : BReg := { val := Config.freeReg s.draws i % 2 ^ s.par.w, written := false }

/-- A transaction presented while `rst_n = 0` is ignored; a read returns 0 (R280). -/
def resetReads (presented : Option Txn) (reads : List Word) : List Word :=
  match presented with
  | some (.read _ _) => 0#32 :: reads
  | _ => reads

/-- The reset step: every control field to its value of R42, the command in flight abandoned, the fault mark cleared, the
`written` bits false, B and BUF arbitrary (R280, R282). The parameters are fixed (R42); the schedule and the host's
observations are not the block's. -/
def resetStep (presented : Option Txn) (s : State) : State :=
  { State.resetFor s.par with
    regs := (List.range s.par.nreg).map (resetReg s)
    schedule := s.schedule
    reads := resetReads presented s.reads
    draws := s.draws + s.par.bufBytes }

end Sys2Proof.Machine
end

