-- ==== Sys2Proof/Machine/Step.lean ====
section
/-! DEFINITION. One step of the machine: the next event of the schedule (20_memory.md R75). -/

namespace Sys2Proof.Machine

/-- One step of whichever agent the schedule names (R75, R282, R291). When the schedule is empty, a command in flight
completes (weak fairness, R290), and an idle block stays as it is (R281). -/
def step (s : State) : Host.Outcome State Fault Refusal :=
  match s.schedule with
  | [] => engineStep s
  | .host t :: rest => .next (hostStep t { s with schedule := rest })
  | .engine :: rest => engineStep { s with schedule := rest }
  | .reset t :: rest => .next (resetStep t { s with schedule := rest })

/-- `s` with a table row's word accepted as its command and the engine next to step (log entry 9). -/
def State.withFetchWord (s : State) (nbits w : Nat) : State := s.issue (tableWord nbits w)

end Sys2Proof.Machine
end

