-- ==== Sys2Proof/Machine/HostProgram.lean ====
section
/-! DEFINITION. Host pseudo-instructions, their expansions (30_encoding.md R100, R101), and how a host program runs. R101 gives
no meaning to operands that leave the bounds of R63 (`0x1000 + A + i >= 2^16`, `L * 2^16 + A >= 2^32`). DESIGN CHOICE: the
address and the data are then taken modulo `2^16` and `2^32` (log entry 20). -/

namespace Sys2Proof.Machine

/-! ### Programs -/

/-- What a host program is made of: single transactions, and the loop `wait` (R101). -/
inductive HostOp where
  /-- One transaction (R63). -/
  | txn (t : Txn)
  /-- `wait` (R101): repeat `s <- HostRead(0x0004, 4)` until `s[0] = 0`. -/
  | wait
deriving DecidableEq, Repr

/-- Issuing a command: `HostWrite(0x0000, 4, word)` (R100). -/
def evIssue (i : Instr) : List HostOp := [.txn (.write offCmd .four (encode i))]

/-- `setarg A, L`: `HostWrite(0x0008, 4, L * 2^16 + A)` (R101); data of `2^32` or more wrap (log entry 20). -/
def evSetarg (a l : Nat) : List HostOp := [.txn (.write offArg .four (BitVec.ofNat 32 (l * 2 ^ 16 + a)))]

/-- `wbuf A, v0, ..., vk` (R101); an address of `2^16` or more wraps (log entry 20). R101 gives no bound for a value `vi`.
DESIGN CHOICE: it is any bus data, below `2^32` (R63; log entry 20); the write itself ignores its bits 31:8 (R65). -/
def evWbuf : Nat → List Word → List HostOp
  | _, [] => []
  | a, v :: vs => .txn (.write (BitVec.ofNat 16 (0x1000 + a)) .one v) :: evWbuf (a + 1) vs

/-- `rbuf A, n` (R101); an address of `2^16` or more wraps (log entry 20). -/
def evRbuf : Nat → Nat → List HostOp
  | _, 0 => []
  | a, n + 1 => .txn (.read (BitVec.ofNat 16 (0x1000 + a)) .one) :: evRbuf (a + 1) n

/-- `wait` (R101). -/
def evWait : List HostOp := [.wait]

/-- `clrdone` (R101). -/
def evClrdone : List HostOp := [.txn (.write offStatus .four 0x00000002#32)]

/-- `clrovr` (R101). -/
def evClrovr : List HostOp := [.txn (.write offStatus .four 0x00000008#32)]

/-- `ld bd, A, L` (R101). -/
def evLd (d : RegIdx) (a l : Nat) : List HostOp := evSetarg a l ++ evIssue (.b2i d) ++ evWait

/-- `st bs, A, L` (R101). -/
def evSt (b : RegIdx) (a l : Nat) : List HostOp := evSetarg a l ++ evIssue (.i2bfix b) ++ evWait

/-- `zero bd` (R101). -/
def evZero (d : RegIdx) : List HostOp := evLd d 0 0

/-! ### Running a program -/

/-- Whose step is next: the host's, with its program's next transaction, or the engine's (R18, R75; log entry 21). -/
inductive Turn where
  | host | engine
deriving DecidableEq, Repr

/-- The transaction an operation makes in one host step: for `wait`, one read of STATUS. -/
def HostOp.toTxn : HostOp → Txn
  | .txn t => t
  | .wait => .read offStatus .four

/-- Whether an operation is over once its transaction has read `v`: a `wait` is over when `v[0] = 0`, else it repeats. -/
def HostOp.over (v : Word) : HostOp → Bool
  | .txn _ => true
  | .wait => !v.getLsbD 0

/-- What is left of a program after the transaction of its first operation, made in state `s`. -/
def restOf (p : List HostOp) (s : State) : List HostOp :=
  match p with
  | [] => []
  | op :: rest => if op.over (hostRead offStatus .four s) then rest else op :: rest

/-- One step of the machine whose event is `e`, the schedule as before. -/
def stepWith (e : Event) (s : State) : Host.Outcome State Fault Refusal := step { s with schedule := e :: s.schedule }

/-- An outcome for the block, with what is left of the host's program beside it. -/
def beside (p : List HostOp) : Host.Outcome State Fault Refusal → Host.Outcome (List HostOp × State) Fault Refusal
  | .next s => .next (p, s)
  | .fault f => .fault f
  | .refused r => .refused r

/-- One turn of a host program on the block (R63, R75, R291). A host whose program is over makes no transaction. -/
def programTurn (t : Turn) (p : List HostOp) (s : State) : Host.Outcome (List HostOp × State) Fault Refusal :=
  match t, p with
  | .engine, p => beside p (stepWith .engine s)
  | .host, [] => .next ([], s)
  | .host, op :: rest => beside (restOf (op :: rest) s) (stepWith (.host op.toTxn) s)

/-- A host program run on the block, the turns as `ts` gives them (R75: any interleaving). -/
def runProgram : List Turn → List HostOp → State → Host.Outcome (List HostOp × State) Fault Refusal
  | [], p, s => .next (p, s)
  | t :: ts, p, s =>
    match programTurn t p s with
    | .next (q, u) => runProgram ts q u
    | .fault f => .fault f
    | .refused r => .refused r

end Sys2Proof.Machine
end

