-- ==== Sys2Proof/Safety.lean ====
section
/-! DEFINITION. The invariant every step keeps, what a finished run is (70_reset_and_hazards.md R298), and the words in
which the statements speak of what a step leaves alone. -/

namespace Sys2Proof.Machine

/-! ### The invariant, in parts -/

/-- The register file has `NREG` registers, each holding a value below `2^W` (R12, R21). -/
abbrev State.regsOk (s : State) : Prop := s.regs.length = s.par.nreg ∧ ∀ r ∈ s.regs, r.val < 2 ^ s.par.w

/-- The buffer is in its canonical form and lies in `[0, BUFBYTES)` (R60). -/
abbrev State.bufOk (s : State) : Prop := Memory.wf s.buf ∧ ∀ p ∈ s.buf, p.1 < s.par.bufBytes

/-- A latch is held exactly while BUSY (R43), and its ARG is the current ARG, which no write can change meanwhile
(R33, R39, R78). -/
abbrev State.latchOk (s : State) : Prop :=
  s.inflight.isSome = s.busy ∧ ∀ l ∈ s.inflight, l.arg = s.arg

/-- While BUSY, DONE, ERR and ERRCODE are still cleared from acceptance (R27, R28, R29). -/
abbrev State.busyOk (s : State) : Prop := s.busy = true → s.done = false ∧ s.err = false

/-- ERRCODE is 0 exactly when ERR is 0, and never a reserved code (R26, R240, U12). -/
abbrev State.errOk (s : State) : Prop := (s.err = true ↔ s.errcode ≠ 0#4) ∧ s.errcode ≤ 9#4

/-- RESLEN is a count of bytes that lay in BUF (R36, R80). -/
abbrev State.reslenOk (s : State) : Prop := s.reslen.toNat ≤ s.par.bufBytes

/-- What holds after reset and is kept by every step. -/
abbrev State.Inv (s : State) : Prop :=
  s.par.wf ∧ s.regsOk ∧ s.bufOk ∧ s.latchOk ∧ s.busyOk ∧ s.errOk ∧ s.reslenOk

/-! ### Runs -/

/-- A run has ended: the host's last transaction is done, BUSY = 0, and no fault mark is set (R298). -/
abbrev State.finished (s : State) : Prop := s.schedule = [] ∧ s.busy = false ∧ s.fault = none

/-- What a run shows (R298): the values the host read, the written registers and buffer bytes, STATUS and RESLEN. -/
def State.observation (s : State) : List Word × List (Option Nat) × Memory × Word × Word :=
  (s.reads, s.regs.map (fun r => if r.written then some r.val else none), s.buf, s.statusWord, s.reslenWord)

/-- The state with the contents of never-written registers blanked out (R22, R42: they are unspecified). -/
def State.blankUnwritten (s : State) : State :=
  { s with regs := s.regs.map (fun r => if r.written then r else { val := 0, written := false }) }

/-! ### Frames -/

/-- Every register but those of `ds` has its value and its `written` bit kept. -/
abbrev regsKeptBut (ds : List RegIdx) (s t : State) : Prop :=
  ∀ i : RegIdx, i ∉ ds → t.x i = s.x i ∧ t.writtenB i = s.writtenB i

/-- Every buffer byte is as before, written or not. -/
abbrev bufKept (s t : State) : Prop := ∀ a : Nat, Memory.read t.buf a = Memory.read s.buf a

/-- Every buffer byte outside `[a, a+n)` is as before. -/
abbrev bufKeptOutside (a n : Nat) (s t : State) : Prop :=
  ∀ b : Nat, b < a ∨ a + n ≤ b → Memory.read t.buf b = Memory.read s.buf b

/-- No command writes these: the parameters, ARG, CTRL.IE, STATUS.OVR, and what is the host's own (R23, R290). -/
abbrev hostSideKept (s t : State) : Prop :=
  t.par = s.par ∧ t.arg = s.arg ∧ t.ie = s.ie ∧ t.ovr = s.ovr ∧ t.schedule = s.schedule ∧ t.reads = s.reads

/-- The command ended (R14, R27, R290): BUSY 0, DONE 1, the latch empty. -/
abbrev ended (t : State) : Prop := t.busy = false ∧ t.done = true ∧ t.inflight = none

/-- The command ended without raising: ERR and ERRCODE are as acceptance left them (R29). -/
abbrev completed (s t : State) : Prop := ended t ∧ t.err = s.err ∧ t.errcode = s.errcode

/-- Every register command `i` reads has been written since reset (R22). -/
abbrev sourcesWritten (i : Instr) (s : State) : Prop := ∀ r ∈ i.sources, s.writtenB r = true

/-- Command `i` read storage not written since reset: UNWRITTEN_READ is recorded, a mark already there staying (log entry 6);
nothing is computed; the command ended without an error (log entry 5). -/
abbrev uncomputed (i : Instr) (s t : State) : Prop :=
  t.fault = s.fault.or (some (.unwrittenRead i)) ∧ completed s t ∧ regsKeptBut [] s t ∧ bufKept s t ∧ t.c = s.c ∧
    t.reslen = s.reslen ∧ hostSideKept s t

/-- The command raised the error of this code: its status is written and nothing else (R14, R241). -/
abbrev raised (code : BitVec 4) (s t : State) : Prop :=
  ended t ∧ t.err = true ∧ t.errcode = code ∧ regsKeptBut [] s t ∧ bufKept s t ∧ t.reslen = s.reslen ∧ t.c = s.c ∧
    hostSideKept s t

/-! ### Words of the statements -/

/-- `v[hi:lo]` of a 32-bit word, as R11 writes it. -/
def bitsOf (w : Word) (hi lo : Nat) : Nat := w.toNat / 2 ^ lo % 2 ^ (hi - lo + 1)

/-- The engine is the next to step: the schedule names it, or is empty. -/
abbrev engineNext (s : State) : Prop := s.schedule = [] ∨ ∃ rest, s.schedule = .engine :: rest

/-- The next step is this transaction of the host. -/
abbrev hostNext (txn : Txn) (s : State) : Prop := ∃ rest, s.schedule = .host txn :: rest

/-- The next step is a reset. -/
abbrev resetNext (s : State) : Prop := ∃ p rest, s.schedule = .reset p :: rest

/-- The host issues a command (R100) and the engine completes it. -/
def afterCommand (i : Instr) (s : State) : Host.Outcome State Fault Refusal :=
  engineStep (hostWrite offCmd .four (encode i) s)

end Sys2Proof.Machine
end

