-- ==== Sys2Proof/Certificates/Slice0/Obligations.lean ====
section
/-! DEFINITION. The statements for the provers, in the order of spec/: encoding, converters, arithmetic, errors, host bus,
interrupt, reset, whole machine. -/

open Sys2Proof Sys2Proof.Machine

/-! ### Encoding (30_encoding.md) -/

/-- R91, R94: no bit of a command is dropped by its word, for every command with every field value. -/
def Obligations.DecodeOfEncodeGivesTheCommand : Prop :=
  ∀ i : Instr, decode (encode i) = .ok i

/-- R96: a legal word is the word of exactly one command. -/
def Obligations.LegalWordIsTheWordOfItsCommand : Prop :=
  ∀ (w : Word) (i : Instr), decode w = .ok i → encode i = w

/-- R94, the match and mask columns: a word decodes to a command of a row exactly when its bits under the row's mask are
the row's match value. -/
def Obligations.DecodeFollowsMatchAndMask : Prop :=
  ∀ (w : Word) (i : Instr),
    (∃ j, decode w = .ok j ∧ j.mnemonic = i.mnemonic) ↔ w &&& i.matchMask.2 = i.matchMask.1

/-- R96, in the fields of R91 as R11 reads them: a word is illegal exactly when its opcode or a reserved field is, or a
field its form does not use is nonzero; the engine completes it with ILLEGAL_CMD and changes no register, buffer byte, C
or RESLEN. -/
def Obligations.IllegalWordCompletesWithIllegalCmd : Prop :=
  ∀ w : Word,
    (decode w = .error .illegalCmd ↔
      (bitsOf w 5 0 = 0 ∨ 0x0B ≤ bitsOf w 5 0) ∨ bitsOf w 7 6 ≠ 0 ∨ bitsOf w 31 24 ≠ 0 ∨
      (bitsOf w 5 0 = 0x01 ∧ (bitsOf w 15 12 ≠ 0 ∨ bitsOf w 19 16 ≠ 0 ∨ bitsOf w 23 20 ≠ 0)) ∨
      ((bitsOf w 5 0 = 0x02 ∨ bitsOf w 5 0 = 0x03) ∧
        (bitsOf w 11 8 ≠ 0 ∨ bitsOf w 19 16 ≠ 0 ∨ bitsOf w 23 20 ≠ 0)) ∨
      (0x04 ≤ bitsOf w 5 0 ∧ bitsOf w 5 0 ≤ 0x07 ∧ bitsOf w 23 20 ≠ 0)) ∧
    (decode w = .error .illegalCmd ∨ ∃ i, decode w = .ok i) ∧
    (decode w = .error .illegalCmd → ∀ (s : State) (a : Word), s.inflight = some { cmd := w, arg := a } →
      ∃ t, engineStep s = .next t ∧ raised 1#4 s t ∧ t.fault = s.fault)

/-- R102: the example words, written out. -/
def Obligations.ExampleWordsDecode : Prop :=
  decode 0x00000301#32 = .ok (.b2i 3) ∧ decode 0x00005002#32 = .ok (.i2bfix 5) ∧
  decode 0x00005003#32 = .ok (.i2bmin 5) ∧ decode 0x00010204#32 = .ok (.add 2 0 1) ∧
  decode 0x00010205#32 = .ok (.sub 2 0 1) ∧ decode 0x00021306#32 = .ok (.mullo 3 1 2) ∧
  decode 0x00021407#32 = .ok (.mulhi 4 1 2) ∧ decode 0x00120608#32 = .ok (.montmul 6 0 2 1) ∧
  decode 0x00134509#32 = .ok (.modexp 5 4 3 1) ∧ decode 0x0012040A#32 = .ok (.modexpc 4 0 2 1) ∧
  decode 0x000FFF04#32 = .ok (.add 15 15 15)

/-- R97, R243: a legal command that names a register the instance has not completes with REG_RANGE; with 16 registers
none does, whatever the word: no engine step raises code 2. -/
def Obligations.RegisterOutOfRangeCompletesWithRegRange : Prop :=
  (∀ (s : State) (l : Latch) (i : Instr), s.inflight = some l → decode l.cmd = .ok i → ¬ i.wf s.par.nreg →
    ∃ t, engineStep s = .next t ∧ raised 2#4 s t ∧ t.fault = s.fault) ∧
  (∀ i : Instr, i.wf 16) ∧
  (∀ s t : State, s.par.nreg = 16 → engineStep s = .next t → s.errcode ≠ 2#4 → t.errcode ≠ 2#4)

/-- A step runs the decoded command: the engine's turn at a state with `l` in flight is `exec` of what `l.cmd` decodes to,
on that state with the engine's turn taken off the schedule. A step whose event is a host transaction is the host's step, and
one whose event is a reset is the reset step, likewise (R75, R282, R291). The schedule is the model's own (log entry 7). -/
def Obligations.StepRunsTheDecodedCommand : Prop :=
  (∀ (s : State) (l : Latch) (i : Instr), s.inflight = some l → decode l.cmd = .ok i →
    (s.schedule = [] → step s = exec i s) ∧
    (∀ rest, s.schedule = .engine :: rest → step s = exec i { s with schedule := rest })) ∧
  (∀ (s : State) (t : Txn) (rest : List Event), s.schedule = .host t :: rest →
    step s = .next (hostStep t { s with schedule := rest })) ∧
  (∀ (s : State) (p : Option Txn) (rest : List Event), s.schedule = .reset p :: rest →
    step s = .next (resetStep p { s with schedule := rest }))

/-- R95 whole: the engine's step on the latched word is the first error R95 finds, or the command's own rule. -/
def Obligations.EngineStepFollowsTheDecodeRule : Prop :=
  ∀ (s : State) (l : Latch), s.inflight = some l →
    engineStep s = match decodeCommand s.par.nreg l.cmd with
      | .error e => .next (s.raise e)
      | .ok i => exec i s

/-! ### Converters (40_codec.md) -/

/-- R121: B2I. The value is the sum of R13 over the stored bytes, where every byte read has been written since reset; where
one has not, B2iOverUnwrittenBytesIsMarked speaks. -/
def Obligations.B2iReadsTheBigEndianValue : Prop :=
  ∀ (s : State) (l : Latch) (rd : RegIdx) (a n v : Nat), s.Inv → s.inflight = some l →
    (Instr.b2i rd).wf s.par.nreg → a = bitsOf l.arg 15 0 → n = bitsOf l.arg 31 16 →
    v = ∑ k ∈ Finset.range n, ((Memory.read s.buf (a + k)).getD 0#8).toNat * 256 ^ (n - 1 - k) →
    (∀ w : Word, decode w = .ok (.b2i rd) ↔
      w.toNat = 0x01 + rd.toNat * 2 ^ 8) ∧
    (s.par.bufBytes < a + n → ∃ t, exec (.b2i rd) s = .next t ∧ raised 3#4 s t ∧ t.fault = s.fault) ∧
    (a + n ≤ s.par.bufBytes → (∀ k < n, s.writtenBuf (a + k) = true) → 2 ^ s.par.w ≤ v →
      ∃ t, exec (.b2i rd) s = .next t ∧ raised 4#4 s t ∧ t.fault = s.fault) ∧
    (a + n ≤ s.par.bufBytes → (∀ k < n, s.writtenBuf (a + k) = true) → v < 2 ^ s.par.w →
      ∃ t, exec (.b2i rd) s = .next t ∧ t.x rd = v ∧ t.writtenB rd = true ∧ completed s t ∧
        regsKeptBut [rd] s t ∧ bufKept s t ∧ t.c = s.c ∧ t.reslen = s.reslen ∧ hostSideKept s t ∧ t.fault = s.fault)

/-- R22, R247, R249 for B2I over a byte never written since reset: past the BUFFER_RANGE check the command does not compute,
and UNWRITTEN_READ naming it is recorded. The model's choices: the step answers a next state and ends the command without an
error (log entry 5), and the first mark is the one kept (log entry 6). -/
def Obligations.B2iOverUnwrittenBytesIsMarked : Prop :=
  ∀ (s : State) (l : Latch) (rd : RegIdx) (a n : Nat), s.Inv → s.inflight = some l →
    (Instr.b2i rd).wf s.par.nreg → a = bitsOf l.arg 15 0 → n = bitsOf l.arg 31 16 →
    a + n ≤ s.par.bufBytes → (∃ k < n, s.writtenBuf (a + k) = false) →
    ∃ t, exec (.b2i rd) s = .next t ∧ uncomputed (.b2i rd) s t

/-- R125: I2BFIX. Byte `k` of the result is `v div 256^(L-1-k) mod 256` (R13); the bytes outside `[A, A+L)` are as before.
The source has been written since reset; where it has not, UnwrittenSourcesAreNotComputed speaks. -/
def Obligations.I2bfixWritesTheFixedWidthBytes : Prop :=
  ∀ (s : State) (l : Latch) (rs1 : RegIdx) (a n : Nat), s.Inv → s.inflight = some l →
    (Instr.i2bfix rs1).wf s.par.nreg → a = bitsOf l.arg 15 0 → n = bitsOf l.arg 31 16 → sourcesWritten (.i2bfix rs1) s →
    (∀ w : Word, decode w = .ok (.i2bfix rs1) ↔
      w.toNat = 0x02 + rs1.toNat * 2 ^ 12) ∧
    (s.par.bufBytes < a + n → ∃ t, exec (.i2bfix rs1) s = .next t ∧ raised 3#4 s t ∧
      t.fault = s.fault) ∧
    (a + n ≤ s.par.bufBytes → 256 ^ n ≤ s.x rs1 → ∃ t, exec (.i2bfix rs1) s = .next t ∧ raised 5#4 s t ∧
      t.fault = s.fault) ∧
    (a + n ≤ s.par.bufBytes → s.x rs1 < 256 ^ n →
      ∃ t, exec (.i2bfix rs1) s = .next t ∧
        (∀ k < n, Memory.read t.buf (a + k) = some (BitVec.ofNat 8 (s.x rs1 / 256 ^ (n - 1 - k)))) ∧
        bufKeptOutside a n s t ∧ t.reslen.toNat = n ∧ completed s t ∧ regsKeptBut [] s t ∧ t.c = s.c ∧
        hostSideKept s t ∧ t.fault = s.fault)

/-- R126: I2BMIN. `k` is the length of the shortest byte string whose value is `v` (R11), 0 for 0; ARGLAT.LEN plays no
part. The source has been written since reset; where it has not, UnwrittenSourcesAreNotComputed speaks. -/
def Obligations.I2bminWritesTheMinimalBytes : Prop :=
  ∀ (s : State) (l : Latch) (rs1 : RegIdx) (a k : Nat), s.Inv → s.inflight = some l →
    (Instr.i2bmin rs1).wf s.par.nreg → a = bitsOf l.arg 15 0 → sourcesWritten (.i2bmin rs1) s →
    s.x rs1 < 256 ^ k → (k = 0 ∨ 256 ^ (k - 1) ≤ s.x rs1) →
    (∀ w : Word, decode w = .ok (.i2bmin rs1) ↔
      w.toNat = 0x03 + rs1.toNat * 2 ^ 12) ∧
    (s.par.bufBytes < a + k → ∃ t, exec (.i2bmin rs1) s = .next t ∧ raised 3#4 s t ∧
      t.fault = s.fault) ∧
    (a + k ≤ s.par.bufBytes →
      ∃ t, exec (.i2bmin rs1) s = .next t ∧
        (∀ j < k, Memory.read t.buf (a + j) = some (BitVec.ofNat 8 (s.x rs1 / 256 ^ (k - 1 - j)))) ∧
        bufKeptOutside a k s t ∧ t.reslen.toNat = k ∧ completed s t ∧ regsKeptBut [] s t ∧ t.c = s.c ∧
        hostSideKept s t ∧ t.fault = s.fault)

/-- R127, the round-trip law: B2I into `B<r>` and then I2BFIX of `B<r>` with the same ARG leave the bytes as they were,
with RESLEN = L, neither raising. -/
def Obligations.RoundTripGivesTheBytesBack : Prop :=
  ∀ (s : State) (r : RegIdx) (a n : Nat), s.Inv → s.busy = false → r.toNat < s.par.nreg →
    a = bitsOf s.arg 15 0 → n = bitsOf s.arg 31 16 → a + n ≤ s.par.bufBytes →
    (∀ k < n, s.writtenBuf (a + k) = true) → s.memRead a n < 2 ^ s.par.w →
    ∃ t u, afterCommand (.b2i r) s = .next t ∧ t.err = false ∧ afterCommand (.i2bfix r) t = .next u ∧
      u.err = false ∧ u.reslen.toNat = n ∧ bufKept s u

/-- R128: I2BMIN after B2I writes the byte string with all its leading zero bytes removed. -/
def Obligations.MinimalBytesDropLeadingZeros : Prop :=
  ∀ (s : State) (r : RegIdx) (a n z : Nat), s.Inv → s.busy = false → r.toNat < s.par.nreg →
    a = bitsOf s.arg 15 0 → n = bitsOf s.arg 31 16 → a + n ≤ s.par.bufBytes →
    (∀ k < n, s.writtenBuf (a + k) = true) → s.memRead a n < 2 ^ s.par.w →
    z ≤ n → (∀ k < z, Memory.read s.buf (a + k) = some 0#8) →
    (z < n → Memory.read s.buf (a + z) ≠ some 0#8) →
    ∃ t u, afterCommand (.b2i r) s = .next t ∧ t.err = false ∧ afterCommand (.i2bmin r) t = .next u ∧
      u.err = false ∧ u.reslen.toNat = n - z ∧
      (∀ k < n - z, Memory.read u.buf (a + k) = Memory.read s.buf (a + z + k)) ∧ bufKeptOutside a (n - z) s u

/-! ### Adder and multiplier (41_adder.md, 42_multiplier.md) -/

/-- R151: ADD.
The sources have been written since reset; where one has not, UnwrittenSourcesAreNotComputed speaks. -/
def Obligations.AddGivesSumAndCarry : Prop :=
  ∀ (s : State) (rd rs1 rs2 : RegIdx), s.Inv → (Instr.add rd rs1 rs2).wf s.par.nreg →
    sourcesWritten (.add rd rs1 rs2) s →
    (∀ w : Word, decode w = .ok (.add rd rs1 rs2) ↔
      w.toNat = 0x04 + rd.toNat * 2 ^ 8 + rs1.toNat * 2 ^ 12 + rs2.toNat * 2 ^ 16) ∧
    ∃ t, exec (.add rd rs1 rs2) s = .next t ∧
      t.x rd = (s.x rs1 + s.x rs2) % 2 ^ s.par.w ∧ t.c.toNat = (s.x rs1 + s.x rs2) / 2 ^ s.par.w ∧
      t.writtenB rd = true ∧ completed s t ∧ regsKeptBut [rd] s t ∧ bufKept s t ∧ t.reslen = s.reslen ∧
      hostSideKept s t ∧ t.fault = s.fault

/-- R152: the sum is exact with its carry, and symmetric in the sources. -/
def Obligations.AddIsExactAndSymmetric : Prop :=
  ∀ (s : State) (rd rs1 rs2 : RegIdx), s.Inv → (Instr.add rd rs1 rs2).wf s.par.nreg →
    sourcesWritten (.add rd rs1 rs2) s →
    ∃ t u, exec (.add rd rs1 rs2) s = .next t ∧ exec (.add rd rs2 rs1) s = .next u ∧
      t.x rd + t.c.toNat * 2 ^ s.par.w = s.x rs1 + s.x rs2 ∧ u.x rd = t.x rd ∧ u.c = t.c

/-- R153: SUB.
The sources have been written since reset; where one has not, UnwrittenSourcesAreNotComputed speaks. -/
def Obligations.SubGivesDifferenceAndBorrow : Prop :=
  ∀ (s : State) (rd rs1 rs2 : RegIdx), s.Inv → (Instr.sub rd rs1 rs2).wf s.par.nreg →
    sourcesWritten (.sub rd rs1 rs2) s →
    (∀ w : Word, decode w = .ok (.sub rd rs1 rs2) ↔
      w.toNat = 0x05 + rd.toNat * 2 ^ 8 + rs1.toNat * 2 ^ 12 + rs2.toNat * 2 ^ 16) ∧
    ∃ t, exec (.sub rd rs1 rs2) s = .next t ∧
      (s.x rs2 ≤ s.x rs1 → t.x rd = s.x rs1 - s.x rs2 ∧ t.c = false) ∧
      (s.x rs1 < s.x rs2 → t.x rd = s.x rs1 + 2 ^ s.par.w - s.x rs2 ∧ t.c = true) ∧
      t.writtenB rd = true ∧ completed s t ∧ regsKeptBut [rd] s t ∧ bufKept s t ∧ t.reslen = s.reslen ∧
      hostSideKept s t ∧ t.fault = s.fault

/-- R154: the difference is `(a - b) mod 2^W` over the integers, and exact with its borrow. -/
def Obligations.SubIsExactWithItsBorrow : Prop :=
  ∀ (s : State) (rd rs1 rs2 : RegIdx), s.Inv → (Instr.sub rd rs1 rs2).wf s.par.nreg →
    sourcesWritten (.sub rd rs1 rs2) s →
    ∃ t, exec (.sub rd rs1 rs2) s = .next t ∧
      (t.x rd : Int) = ((s.x rs1 : Int) - (s.x rs2 : Int)) % (2 : Int) ^ s.par.w ∧
      (s.x rs1 : Int) = t.x rd + s.x rs2 - t.c.toNat * (2 : Int) ^ s.par.w

/-- R171: MULLO.
The sources have been written since reset; where one has not, UnwrittenSourcesAreNotComputed speaks. -/
def Obligations.MulloGivesTheLowHalf : Prop :=
  ∀ (s : State) (rd rs1 rs2 : RegIdx), s.Inv → (Instr.mullo rd rs1 rs2).wf s.par.nreg →
    sourcesWritten (.mullo rd rs1 rs2) s →
    (∀ w : Word, decode w = .ok (.mullo rd rs1 rs2) ↔
      w.toNat = 0x06 + rd.toNat * 2 ^ 8 + rs1.toNat * 2 ^ 12 + rs2.toNat * 2 ^ 16) ∧
    ∃ t, exec (.mullo rd rs1 rs2) s = .next t ∧ t.x rd = s.x rs1 * s.x rs2 % 2 ^ s.par.w ∧
      t.writtenB rd = true ∧ completed s t ∧ regsKeptBut [rd] s t ∧ bufKept s t ∧ t.c = s.c ∧ t.reslen = s.reslen ∧
      hostSideKept s t ∧ t.fault = s.fault

/-- R173: MULHI; the result fits the register.
The sources have been written since reset; where one has not, UnwrittenSourcesAreNotComputed speaks. -/
def Obligations.MulhiGivesTheHighHalf : Prop :=
  ∀ (s : State) (rd rs1 rs2 : RegIdx), s.Inv → (Instr.mulhi rd rs1 rs2).wf s.par.nreg →
    sourcesWritten (.mulhi rd rs1 rs2) s →
    (∀ w : Word, decode w = .ok (.mulhi rd rs1 rs2) ↔
      w.toNat = 0x07 + rd.toNat * 2 ^ 8 + rs1.toNat * 2 ^ 12 + rs2.toNat * 2 ^ 16) ∧
    ∃ t, exec (.mulhi rd rs1 rs2) s = .next t ∧ t.x rd = s.x rs1 * s.x rs2 / 2 ^ s.par.w ∧ t.x rd < 2 ^ s.par.w ∧
      t.writtenB rd = true ∧ completed s t ∧ regsKeptBut [rd] s t ∧ bufKept s t ∧ t.c = s.c ∧ t.reslen = s.reslen ∧
      hostSideKept s t ∧ t.fault = s.fault

/-- R172: the two halves together are the exact product; operands below `2^(W/2)` give a product that is all in the low
half. -/
def Obligations.ProductHalvesAreExact : Prop :=
  ∀ (s : State) (rd rs1 rs2 : RegIdx), s.Inv → (Instr.mullo rd rs1 rs2).wf s.par.nreg →
    sourcesWritten (.mullo rd rs1 rs2) s →
    ∃ t u, exec (.mullo rd rs1 rs2) s = .next t ∧ exec (.mulhi rd rs1 rs2) s = .next u ∧
      u.x rd * 2 ^ s.par.w + t.x rd = s.x rs1 * s.x rs2 ∧
      (s.x rs1 < 2 ^ (s.par.w / 2) → s.x rs2 < 2 ^ (s.par.w / 2) → u.x rd = 0 ∧ t.x rd = s.x rs1 * s.x rs2)

/-! ### Montgomery multiplier (43_montgomery.md) -/

/-- R190: the radix has exactly one inverse modulo an odd modulus, 0 for modulus 1, and the model computes it; an even
modulus has none. -/
def Obligations.MontgomeryInverseOfTheRadix : Prop :=
  ∀ w n : Nat, 1 ≤ w →
    (n % 2 = 1 → montRinv w n < n ∧ 2 ^ w * montRinv w n % n = 1 % n ∧
      (∀ r < n, 2 ^ w * r % n = 1 % n → r = montRinv w n) ∧ (n = 1 → montRinv w n = 0)) ∧
    (n % 2 = 0 → ∀ r < n, 2 ^ w * r % n ≠ 1 % n)

/-- R192: MONTMUL. The result is `a * b * Rinv mod n` for the `Rinv` of R190.
The sources have been written since reset; where one has not, UnwrittenSourcesAreNotComputed speaks. -/
def Obligations.MontmulGivesTheMontgomeryProduct : Prop :=
  ∀ (s : State) (rd rs1 rs2 rs3 : RegIdx), s.Inv → (Instr.montmul rd rs1 rs2 rs3).wf s.par.nreg →
    sourcesWritten (.montmul rd rs1 rs2 rs3) s →
    (∀ w : Word, decode w = .ok (.montmul rd rs1 rs2 rs3) ↔
      w.toNat = 0x08 + rd.toNat * 2 ^ 8 + rs1.toNat * 2 ^ 12 + rs2.toNat * 2 ^ 16 + rs3.toNat * 2 ^ 20) ∧
    (s.x rs3 % 2 = 0 → ∃ t, exec (.montmul rd rs1 rs2 rs3) s = .next t ∧ raised 8#4 s t ∧
      t.fault = s.fault) ∧
    (s.x rs3 % 2 = 1 → s.x rs3 ≤ s.x rs1 ∨ s.x rs3 ≤ s.x rs2 →
      ∃ t, exec (.montmul rd rs1 rs2 rs3) s = .next t ∧ raised 9#4 s t ∧
        t.fault = s.fault) ∧
    (s.x rs3 % 2 = 1 → s.x rs1 < s.x rs3 → s.x rs2 < s.x rs3 →
      ∃ t, exec (.montmul rd rs1 rs2 rs3) s = .next t ∧
        (∃ rinv < s.x rs3, 2 ^ s.par.w * rinv % s.x rs3 = 1 % s.x rs3 ∧
          t.x rd = s.x rs1 * s.x rs2 * rinv % s.x rs3) ∧
        t.writtenB rd = true ∧ completed s t ∧ regsKeptBut [rd] s t ∧ bufKept s t ∧ t.c = s.c ∧
        t.reslen = s.reslen ∧ hostSideKept s t ∧ t.fault = s.fault)

/-- R193: the Montgomery-domain laws, for odd `n` and `a, b < n`, with `R = 2^w`. -/
def Obligations.MontgomeryDomainLaws : Prop :=
  ∀ w n a b : Nat, n % 2 = 1 → a < n → b < n →
    mont w (a * 2 ^ w % n) (b * 2 ^ w % n) n = a * b * 2 ^ w % n ∧
    mont w a ((2 ^ w) ^ 2 % n) n = a * 2 ^ w % n ∧
    mont w (a * 2 ^ w % n) 1 n = a ∧
    mont w a b n = mont w b a n

/-- R194: B2I of `B<bz>` with ARG = 0 zeroes it; SUB of `n` from it then gives `2^W - n` with C = 1; MODEXP of that with
exponent 1 or 2 gives `R mod n` or `R^2 mod n`; none raises. -/
def Obligations.HostObtainsTheRadixResidues : Prop :=
  ∀ (s : State) (bt bz bn be br : RegIdx) (k : Nat), s.Inv → s.busy = false → s.arg = 0#32 →
    (∀ i ∈ [bt, bz, bn, be, br], i.toNat < s.par.nreg) → bt ≠ bn → bt ≠ be → bz ≠ bn → bz ≠ be →
    s.writtenB bn = true → s.writtenB be = true → 1 < s.x bn → (k = 1 ∨ k = 2) → s.x be = k →
    ∃ r t u, afterCommand (.b2i bz) s = .next r ∧ r.x bz = 0 ∧ r.err = false ∧
      afterCommand (.sub bt bz bn) r = .next t ∧ t.x bt = 2 ^ s.par.w - s.x bn ∧ t.c = true ∧ t.err = false ∧
      afterCommand (.modexp br bt be bn) t = .next u ∧ u.x br = (2 ^ s.par.w) ^ k % s.x bn ∧ u.err = false

/-! ### Modular exponentiation (44_modexp.md) -/

/-- R211: the loop's value is `b^e mod n`, with `0^0 = 1`, in `[0, n)`. -/
def Obligations.ModexpIsThePowerModN : Prop :=
  ∀ b e n : Nat, 1 ≤ n → modexp b e n = b ^ e % n ∧ modexp b e n < n

/-- R212: MODEXP.
The sources have been written since reset; where one has not, UnwrittenSourcesAreNotComputed speaks. -/
def Obligations.ModexpGivesThePower : Prop :=
  ∀ (s : State) (rd rs1 rs2 rs3 : RegIdx), s.Inv → (Instr.modexp rd rs1 rs2 rs3).wf s.par.nreg →
    sourcesWritten (.modexp rd rs1 rs2 rs3) s →
    (∀ w : Word, decode w = .ok (.modexp rd rs1 rs2 rs3) ↔
      w.toNat = 0x09 + rd.toNat * 2 ^ 8 + rs1.toNat * 2 ^ 12 + rs2.toNat * 2 ^ 16 + rs3.toNat * 2 ^ 20) ∧
    (s.x rs3 = 0 → ∃ t, exec (.modexp rd rs1 rs2 rs3) s = .next t ∧ raised 7#4 s t ∧
      t.fault = s.fault) ∧
    (1 ≤ s.x rs3 → ∃ t, exec (.modexp rd rs1 rs2 rs3) s = .next t ∧ t.x rd = s.x rs1 ^ s.x rs2 % s.x rs3 ∧
      t.writtenB rd = true ∧ completed s t ∧ regsKeptBut [rd] s t ∧ bufKept s t ∧ t.c = s.c ∧ t.reslen = s.reslen ∧
      hostSideKept s t ∧ t.fault = s.fault)

/-- R214: MODEXPC.
The sources have been written since reset; where one has not, UnwrittenSourcesAreNotComputed speaks. -/
def Obligations.ModexpcChecksThePlaintext : Prop :=
  ∀ (s : State) (rd rs1 rs2 rs3 : RegIdx), s.Inv → (Instr.modexpc rd rs1 rs2 rs3).wf s.par.nreg →
    sourcesWritten (.modexpc rd rs1 rs2 rs3) s →
    (∀ w : Word, decode w = .ok (.modexpc rd rs1 rs2 rs3) ↔
      w.toNat = 0x0A + rd.toNat * 2 ^ 8 + rs1.toNat * 2 ^ 12 + rs2.toNat * 2 ^ 16 + rs3.toNat * 2 ^ 20) ∧
    (s.x rs3 ≤ s.x rs1 → ∃ t, exec (.modexpc rd rs1 rs2 rs3) s = .next t ∧ raised 6#4 s t ∧
      t.fault = s.fault) ∧
    (s.x rs1 < s.x rs3 → ∃ t, exec (.modexpc rd rs1 rs2 rs3) s = .next t ∧ t.x rd = s.x rs1 ^ s.x rs2 % s.x rs3 ∧
      t.writtenB rd = true ∧ completed s t ∧ regsKeptBut [rd] s t ∧ bufKept s t ∧ t.c = s.c ∧ t.reslen = s.reslen ∧
      hostSideKept s t ∧ t.fault = s.fault)

/-- R217: RSA correctness on the block. With an RSA key in the registers, MODEXPC of `m, e, n` and then MODEXP of the result
with `d, n` gives `m` back. -/
def Obligations.RsaDecryptsWhatItEncrypts : Prop :=
  ∀ (s : State) (rc rx rm re rd rn : RegIdx) (p q e d m : Nat), s.Inv → s.busy = false →
    (∀ i ∈ [rc, rx, rm, re, rd, rn], i.toNat < s.par.nreg) →
    rc ≠ rd → rc ≠ rn → p.Prime → q.Prime → p ≠ q →
    e < Nat.lcm (p - 1) (q - 1) → Nat.Coprime e (Nat.lcm (p - 1) (q - 1)) →
    e * d % Nat.lcm (p - 1) (q - 1) = 1 % Nat.lcm (p - 1) (q - 1) → m < p * q →
    s.x rm = m → s.x re = e → s.x rd = d → s.x rn = p * q → (∀ i ∈ [rm, re, rd, rn], s.writtenB i = true) →
    ∃ t u, afterCommand (.modexpc rc rm re rn) s = .next t ∧ t.err = false ∧
      afterCommand (.modexp rx rc rd rn) t = .next u ∧ u.err = false ∧ u.x rx = m

/-! ### Errors and the fault mark (10_state.md R22 to R31, 60_exceptions.md) -/

/-- R241: raising writes the status and nothing else; so a command that fails has no effect but its status, for every word
that can be in flight. -/
def Obligations.FailedCommandHasNoEffectButItsStatus : Prop :=
  (∀ (s : State) (e : ErrorCode), raised (errorBits e) s (s.raise e)) ∧
  (∀ s t : State, s.err = false → engineStep s = .next t → t.err = true →
    ∃ e : ErrorCode, raised (errorBits e) s t)

/-- R31: C is written only by a successful ADD or SUB (and by reset), no command reads it, and STATUS shows it. -/
def Obligations.CarryIsWrittenOnlyByAddAndSub : Prop :=
  (∀ s t : State, s.Inv → step s = .next t → t.c ≠ s.c →
    resetNext s ∨ (engineNext s ∧ t.err = false ∧ ∃ l rd rs1 rs2, s.inflight = some l ∧
      ((decode l.cmd = .ok (.add rd rs1 rs2) ∧ t.c.toNat = (s.x rs1 + s.x rs2) / 2 ^ s.par.w) ∨
        (decode l.cmd = .ok (.sub rd rs1 rs2) ∧ (t.c = true ↔ s.x rs1 < s.x rs2))))) ∧
  (∀ (s t : State) (i : Instr) (b : Bool), exec i s = .next t →
    ∃ u, exec i { s with c := b } = .next u ∧ { u with c := t.c } = t) ∧
  (∀ s : State, bitsOf (hostRead 0x0004#16 .four s) 4 4 = s.c.toNat)

/-- R36: RESLEN is written only by a successful I2BFIX or I2BMIN, with the number of bytes written, and by reset, with 0; a
read of it gives the count, and a write is ignored. -/
def Obligations.ReslenIsWrittenOnlyByByteOutput : Prop :=
  (∀ s t : State, s.Inv → step s = .next t → t.reslen ≠ s.reslen →
    (resetNext s ∧ t.reslen = 0#16) ∨ (engineNext s ∧ t.err = false ∧ ∃ l rs1, s.inflight = some l ∧
      ((decode l.cmd = .ok (.i2bfix rs1) ∧ t.reslen.toNat = bitsOf l.arg 31 16) ∨
        (decode l.cmd = .ok (.i2bmin rs1) ∧ t.reslen.toNat = minlen (s.x rs1))))) ∧
  (∀ (s : State) (d : Word), hostRead 0x000C#16 .four s = s.reslen.setWidth 32 ∧ hostWrite 0x000C#16 .four d s = s)

/-- R22, R249, R282: the fault mark, once set, stays as it is until reset; only an engine step sets it. The model keeps the
first mark (log entry 6). -/
def Obligations.FaultMarkIsKeptUntilReset : Prop :=
  ∀ s t : State, step s = .next t → ¬ resetNext s →
    (∀ f, s.fault = some f → t.fault = some f) ∧
    (t.fault ≠ s.fault → engineNext s ∧ ∃ l i, s.inflight = some l ∧ decode l.cmd = .ok i ∧
      t.fault = some (.unwrittenRead i))

/-- R22, U1, U4: what lies in never-written registers cannot be seen: two states that agree but for those contents step to
states that agree but for those contents, with the same observation and the same mark. -/
def Obligations.UnwrittenContentsAreNotObservable : Prop :=
  ∀ s s' t : State, s.blankUnwritten = s'.blankUnwritten → step s = .next t →
    ∃ t', step s' = .next t' ∧ t.blankUnwritten = t'.blankUnwritten ∧ t.observation = t'.observation ∧ t.fault = t'.fault

/-! ### Host bus (10_state.md R26 to R40, 20_memory.md) -/

/-- R27, R32, R39: a CMD write to an idle block is accepted and latched with the current ARG; the engine's next step
completes it; a write while BUSY is discarded with OVR; a CMD read returns 0. That the engine's step answers a next state in
which the command has ended where it reads unwritten storage too, where U1, U2 and U4 speak of a model that stops, is the
model's choice (log entry 5). -/
def Obligations.CommandIsAcceptedAndCompletes : Prop :=
  ∀ (s : State) (w : Word),
    (s.busy = false →
      hostWrite 0x0000#16 .four w s =
        { s with busy := true, done := false, err := false, errcode := 0#4,
                 inflight := some { cmd := w, arg := s.arg } } ∧
      ∃ t, engineStep (hostWrite 0x0000#16 .four w s) = .next t ∧ ended t) ∧
    (s.busy = true → hostWrite 0x0000#16 .four w s = { s with ovr := true }) ∧
    hostRead 0x0000#16 .four s = 0#32

/-- R30: a CMD, ARG or BUF write while BUSY changes nothing but OVR, and OVR goes back to 0 only by a STATUS write with
bit 3 set (or by reset). -/
def Obligations.OverrunIsDiscardedAndSticky : Prop :=
  (∀ (s : State) (d : Word), s.busy = true →
    hostWrite 0x0000#16 .four d s = { s with ovr := true } ∧ hostWrite 0x0008#16 .four d s = { s with ovr := true } ∧
    ∀ a : Offset, 0x1000 ≤ a.toNat → a.toNat < 0x1000 + s.par.bufBytes → s.par.bufBytes ≤ 0x1000 →
      hostWrite a .one d s = { s with ovr := true }) ∧
  (∀ s t : State, step s = .next t → s.ovr = true →
    (t.ovr = false ↔ resetNext s ∨ ∃ d : Word, d.getLsbD 3 = true ∧ hostNext (.write 0x0004#16 .four d) s))

/-- R28: DONE is cleared by a STATUS write with bit 1 set and by the acceptance of a command, and by nothing else (but
reset). -/
def Obligations.DoneIsClearedOnlyByAckOrAcceptance : Prop :=
  ∀ s t : State, step s = .next t → s.done = true →
    (t.done = false ↔
      resetNext s ∨ (∃ d : Word, d.getLsbD 1 = true ∧ hostNext (.write 0x0004#16 .four d) s) ∨
      (s.busy = false ∧ ∃ w : Word, hostNext (.write 0x0000#16 .four w) s))

/-- R26: the word a STATUS read returns, bit by bit, with no side effect; the effect of a STATUS write, BUSY or not; 0 after
reset. -/
def Obligations.StatusReadsAndWritesItsFields : Prop :=
  ∀ (s : State) (d : Word),
    (hostRead 0x0004#16 .four s).toNat = s.busy.toNat + s.done.toNat * 2 ^ 1 + s.err.toNat * 2 ^ 2 + s.ovr.toNat * 2 ^ 3 +
      s.c.toNat * 2 ^ 4 + s.errcode.toNat * 2 ^ 8 ∧
    hostWrite 0x0004#16 .four d s =
      { s with done := if bitsOf d 1 1 = 1 then false else s.done, ovr := if bitsOf d 3 3 = 1 then false else s.ovr } ∧
    hostStep (.read 0x0004#16 .four) s = { s with reads := hostRead 0x0004#16 .four s :: s.reads } ∧
    (∀ p, hostRead 0x0004#16 .four (resetStep p s) = 0#32)

/-- R33: ARG reads back exactly as written; while BUSY the write is discarded with OVR; 0 after reset; a command uses the two
fields of the ARG at its acceptance. -/
def Obligations.ArgReadsBackAsWritten : Prop :=
  ∀ (s : State) (d : Word),
    (s.busy = false → hostWrite 0x0008#16 .four d s = { s with arg := d } ∧
      hostRead 0x0008#16 .four (hostWrite 0x0008#16 .four d s) = d) ∧
    (s.busy = true → hostWrite 0x0008#16 .four d s = { s with ovr := true } ∧
      hostRead 0x0008#16 .four (hostWrite 0x0008#16 .four d s) = s.arg) ∧
    (∀ p, hostRead 0x0008#16 .four (resetStep p s) = 0#32) ∧
    (∀ w, s.busy = false → (hostWrite 0x0000#16 .four w s).argAddr = bitsOf s.arg 15 0 ∧
      (hostWrite 0x0000#16 .four w s).argLen = bitsOf s.arg 31 16)

/-- R34, R35: PARAM0 and PARAM1 read the parameters and the version, writes are ignored, and no step changes them. -/
def Obligations.ParamsReadTheInstanceAndNeverChange : Prop :=
  ∀ (s : State), s.par.wf →
    (hostRead 0x0014#16 .four s).toNat = s.par.w + s.par.nreg * 2 ^ 16 + 0x01 * 2 ^ 24 ∧
    (hostRead 0x0018#16 .four s).toNat = s.par.bufBytes ∧
    (∀ d : Word, hostWrite 0x0014#16 .four d s = s ∧ hostWrite 0x0018#16 .four d s = s) ∧
    (∀ t, step s = .next t → hostRead 0x0014#16 .four t = hostRead 0x0014#16 .four s ∧
      hostRead 0x0018#16 .four t = hostRead 0x0018#16 .four s)

/-- R37: CTRL holds IE alone, written BUSY or not; 0 after reset. -/
def Obligations.CtrlHoldsTheInterruptEnable : Prop :=
  ∀ (s : State) (d : Word),
    hostWrite 0x0010#16 .four d s = { s with ie := decide (bitsOf d 0 0 = 1) } ∧
    (hostRead 0x0010#16 .four s).toNat = s.ie.toNat ∧
    (∀ p, (resetStep p s).ie = false)

/-- R64, R67: a transaction that reaches no location reads 0, and writes nothing, OVR included. It reaches one only as a
four-byte access to 0x0000, 0x0004, ..., 0x0018 or a one-byte access to the buffer window below BUFBYTES. -/
def Obligations.UnmappedTransactionsAreIgnored : Prop :=
  ∀ (s : State) (addr : Offset) (size : Size) (d : Word), s.par.bufBytes ≤ 0x1000 →
    ¬ (size = .four ∧ addr.toNat % 4 = 0 ∧ addr.toNat ≤ 0x0018) →
    ¬ (size = .one ∧ 0x1000 ≤ addr.toNat ∧ addr.toNat < 0x1000 + s.par.bufBytes) →
    hostWrite addr size d s = s ∧ hostRead addr size s = 0#32 ∧
    hostStep (.read addr size) s = { s with reads := 0#32 :: s.reads }

/-- R65: a one-byte write in the buffer window, idle: that byte is stored and marked written, every other byte and all other
state is as before. While BUSY it is discarded with OVR. A four-byte write in the window, or one beyond BUFBYTES, is
ignored. -/
def Obligations.BufferWriteStoresOneByte : Prop :=
  ∀ (s : State) (a : Nat) (d : Word), a < s.par.bufBytes → s.par.bufBytes ≤ 0x1000 →
    (s.busy = true → hostWrite (BitVec.ofNat 16 (0x1000 + a)) .one d s = { s with ovr := true }) ∧
    (s.busy = false →
      let t := hostWrite (BitVec.ofNat 16 (0x1000 + a)) .one d s
      Memory.read t.buf a = some (BitVec.ofNat 8 d.toNat) ∧ bufKeptOutside a 1 s t ∧ { t with buf := s.buf } = s) ∧
    (∀ addr : Offset, 0x1000 ≤ addr.toNat → addr.toNat ≤ 0x1FFF →
      hostWrite addr .four d s = s ∧ (0x1000 + s.par.bufBytes ≤ addr.toNat → hostWrite addr .one d s = s))

/-- R66: a one-byte read in the buffer window returns the stored byte when idle and written, and otherwise some byte; it
changes no state of the block. A four-byte read in the window, or one beyond BUFBYTES, gives 0. -/
def Obligations.BufferReadReturnsTheStoredByte : Prop :=
  ∀ (s : State) (a : Nat), a < s.par.bufBytes → s.par.bufBytes ≤ 0x1000 →
    (∀ b : Byte, s.busy = false → Memory.read s.buf a = some b →
      hostRead (BitVec.ofNat 16 (0x1000 + a)) .one s = b.setWidth 32) ∧
    (hostRead (BitVec.ofNat 16 (0x1000 + a)) .one s).toNat < 256 ∧
    (∃ n, hostStep (.read (BitVec.ofNat 16 (0x1000 + a)) .one) s =
      { s with reads := hostRead (BitVec.ofNat 16 (0x1000 + a)) .one s :: s.reads, draws := n }) ∧
    (∀ addr : Offset, 0x1000 ≤ addr.toNat → addr.toNat ≤ 0x1FFF →
      hostRead addr .four s = 0#32 ∧ (0x1000 + s.par.bufBytes ≤ addr.toNat → hostRead addr .one s = 0#32))

/-- R21, R40: the host never sees a B register over the bus, and while BUSY no byte of BUF either: what it reads does not
depend on them. -/
def Obligations.HostReadsNeitherRegistersNorBusyBuffer : Prop :=
  ∀ (s : State) (addr : Offset) (size : Size) (rs : List BReg) (m : Memory),
    hostRead addr size { s with regs := rs } = hostRead addr size s ∧
    (s.busy = true → hostRead addr size { s with regs := rs, buf := m } = hostRead addr size s)

/-- R78: from acceptance to completion no host transaction changes what the command reads: its word, its ARG, the
registers, the buffer. -/
def Obligations.InputsAreFrozenWhileBusy : Prop :=
  ∀ (s : State) (txn : Txn), s.Inv → s.busy = true →
    let t := hostStep txn s
    t.inflight = s.inflight ∧ t.argLat = s.argLat ∧ t.arg = s.arg ∧ t.regs = s.regs ∧ t.buf = s.buf ∧ t.busy = true

/-- R290: apart from reset, only the engine's step changes B, RESLEN and C; ERR and ERRCODE change otherwise only at
acceptance (R29), and BUF only by the host's own byte write to an idle block (R65). -/
def Obligations.OnlyTheEngineWritesResults : Prop :=
  ∀ s t : State, step s = .next t → ¬ engineNext s → ¬ resetNext s →
    t.regs = s.regs ∧ t.reslen = s.reslen ∧ t.c = s.c ∧
    ((t.err = s.err ∧ t.errcode = s.errcode) ∨
      (s.busy = false ∧ t.busy = true ∧ t.err = false ∧ t.errcode = 0#4)) ∧
    (t.buf = s.buf ∨ (s.busy = false ∧ ∃ addr d, 0x1000 ≤ addr.toNat ∧ hostNext (.write addr .one d) s ∧
      bufKeptOutside (addr.toNat - 0x1000) 1 s t))

/-- R75, R261: a host write of ARG and the completion of a command can happen in either order. Before it, the write is lost
with OVR; after it, it is taken. The command's registers and buffer bytes come out the same. The schedule that gives the order
is the model's own (log entry 7). That a command over unwritten storage ends too, and the later write is taken, where U1, U2
and U4 speak of a model that stops, is the model's choice (log entry 5). -/
def Obligations.RaceOfArgWriteAndCompletion : Prop :=
  ∀ (s : State) (d : Word) (rest : List Event), s.Inv → s.busy = true →
    ∃ ta tb, Host.Core.run Sys2Proof.core 2
        { s with schedule := .host (.write 0x0008#16 .four d) :: .engine :: rest } = .next ta ∧
      Host.Core.run Sys2Proof.core 2
        { s with schedule := .engine :: .host (.write 0x0008#16 .four d) :: rest } = .next tb ∧
      ta.ovr = true ∧ ta.arg = s.arg ∧ tb.ovr = s.ovr ∧ tb.arg = d ∧
      ta.regs = tb.regs ∧ ta.buf = tb.buf ∧ ta.err = tb.err ∧ ta.errcode = tb.errcode

/-! ### Interrupt (60_exceptions.md) -/

/-- R250, R251: `irq` is a level. It rises exactly by a completion with IE set or by setting IE while DONE; it falls exactly
by clearing DONE, by an acceptance, by clearing IE, or by reset. -/
def Obligations.IrqRisesAndFallsAsTheRuleSays : Prop :=
  ∀ s t : State, step s = .next t →
    (s.irq = true ↔ s.ie = true ∧ s.done = true) ∧
    (s.irq = false → (t.irq = true ↔
      (engineNext s ∧ s.inflight ≠ none ∧ s.ie = true) ∨
      (s.done = true ∧ ∃ d : Word, d.getLsbD 0 = true ∧ hostNext (.write 0x0010#16 .four d) s))) ∧
    (s.irq = true → (t.irq = false ↔
      resetNext s ∨ (∃ d : Word, d.getLsbD 1 = true ∧ hostNext (.write 0x0004#16 .four d) s) ∨
      (s.busy = false ∧ ∃ w : Word, hostNext (.write 0x0000#16 .four w) s) ∨
      (∃ d : Word, d.getLsbD 0 = false ∧ hostNext (.write 0x0010#16 .four d) s)))

/-! ### Reset (10_state.md R42, 70_reset_and_hazards.md R280, R282) -/

/-- R42: what reset leaves, as an event and as the initial state. The contents of B and BUF are not claimed; every
`written` bit is false. -/
def Obligations.ResetLeavesTheStatedValues : Prop :=
  ∀ (p : Option Txn) (s t : State), t = resetStep p s ∨ t = State.resetFor s.par →
    t.busy = false ∧ t.done = false ∧ t.err = false ∧ t.ovr = false ∧ t.c = false ∧ t.errcode = 0#4 ∧ t.arg = 0#32 ∧
    t.reslen = 0#16 ∧ t.ie = false ∧ t.inflight = none ∧ t.irq = false ∧ t.fault = none ∧ t.par = s.par ∧
    (∀ i, t.writtenB i = false) ∧ (∀ a, t.writtenBuf a = false)

/-- R280: a transaction presented during reset is ignored: the block is as if none had been, and a read returns 0. -/
def Obligations.ResetIgnoresTheBus : Prop :=
  ∀ (s : State) (addr : Offset) (size : Size) (d : Word),
    resetStep (some (.write addr size d)) s = resetStep none s ∧
    resetStep (some (.read addr size)) s =
      { resetStep none s with reads := 0#32 :: (resetStep none s).reads }

/-- R42, R281: the default instance right after reset is idle and meets the invariant; with no event to come it stays
as it is until the host writes. -/
def Obligations.ResetMeetsTheInvariant : Prop :=
  State.reset.Inv ∧ State.reset.busy = false ∧ step State.reset = .next State.reset ∧
    ∀ p : Params, p.wf → (State.resetFor p).Inv

/-! ### The whole machine -/

/-- R290, R291: no step faults or is refused, in any state whatever. That a command over unwritten storage answers a next state
that carries the mark, where U1, U2 and U4 speak of a model that stops, is the model's choice (log entry 5). -/
def Obligations.EveryStepAnswersANextState : Prop :=
  ∀ s : State, ∃ t, step s = .next t

/-- R12, R21, R43, R60, R78 and U12: the invariant is kept by every step of either agent and by reset. -/
def Obligations.EveryStepKeepsTheInvariant : Prop :=
  ∀ s t : State, s.Inv → step s = .next t → t.Inv

/-- R27, R290, R296: from any state that meets the invariant, after the events of its schedule and one step more the host's
last transaction is done and no command is in flight. The engine's turn at the end of the schedule is the model's form of the
fairness of R290 (log entry 7); that a command over unwritten storage ends too is the model's choice (log entry 5). -/
def Obligations.EveryAcceptedCommandCompletes : Prop :=
  ∀ s : State, s.Inv →
    ∃ t, Host.Core.run Sys2Proof.core (s.schedule.length + 1) s = .next t ∧ t.schedule = [] ∧ t.busy = false ∧
      t.inflight = none

/-! ### Statements added by the review -/

/-- R22, R247, R249 for every command that reads a register never written since reset: right after decode, before the
command's own checks, UNWRITTEN_READ naming it is recorded and nothing is computed. The model's choices: the step answers a
next state and ends the command without an error (log entry 5), and the first mark is the one kept (log entry 6). -/
def Obligations.UnwrittenSourcesAreNotComputed : Prop :=
  ∀ (s : State) (i : Instr), i.wf s.par.nreg → (∃ r ∈ i.sources, s.writtenB r = false) →
    ∃ t, exec i s = .next t ∧ uncomputed i s t

/-- R72: no read of any offset and size has a side effect on the block: the host observes the value read, and the model may
number its next free values (log entry 14). A read of a location whose value is not open (R66) gives the same value again, and
so does every other such read. -/
def Obligations.ReadsHaveNoSideEffect : Prop :=
  ∀ (s : State) (addr : Offset) (size : Size),
    (∃ n, hostStep (.read addr size) s = { s with reads := hostRead addr size s :: s.reads, draws := n }) ∧
    (addr.toNat < 0x1000 →
      hostStep (.read addr size) s = { s with reads := hostRead addr size s :: s.reads }) ∧
    (∀ (a' : Offset) (z' : Size),
      ¬ (z' = .one ∧ 0x1000 ≤ a'.toNat ∧ a'.toNat < 0x1000 + s.par.bufBytes ∧
        (s.busy = true ∨ s.writtenBuf (a'.toNat - 0x1000) = false)) →
      hostRead a' z' (hostStep (.read addr size) s) = hostRead a' z' s)

/-- R100, R101 and the bounds of R63: each pseudo-instruction is the transactions the table gives, in order. What a `wait` does
is said by WaitReadsStatusUntilBusyIsClear. Operands beyond the bounds have no meaning in the spec; that a value of `wbuf` is any
bus data of R63 is the model's choice (log entry 20). -/
def Obligations.PseudoInstructionsExpandAsTheTableSays : Prop :=
  (∀ i : Instr, evIssue i = [.txn (.write 0x0000#16 .four (encode i))]) ∧
  (∀ a l : Nat, l * 2 ^ 16 + a < 2 ^ 32 →
    ∃ d : Word, d.toNat = l * 2 ^ 16 + a ∧ evSetarg a l = [.txn (.write 0x0008#16 .four d)]) ∧
  (∀ (a : Nat) (vs : List Word), 0x1000 + a + vs.length ≤ 2 ^ 16 → (evWbuf a vs).length = vs.length ∧
    ∀ (i : Nat) (v : Word), vs[i]? = some v → ∃ addr : Offset,
      addr.toNat = 0x1000 + a + i ∧ (evWbuf a vs)[i]? = some (.txn (.write addr .one v))) ∧
  (∀ a n : Nat, 0x1000 + a + n ≤ 2 ^ 16 → (evRbuf a n).length = n ∧
    ∀ i < n, ∃ addr : Offset, addr.toNat = 0x1000 + a + i ∧ (evRbuf a n)[i]? = some (.txn (.read addr .one))) ∧
  evClrdone = [.txn (.write 0x0004#16 .four 2#32)] ∧ evClrovr = [.txn (.write 0x0004#16 .four 8#32)] ∧
  (∀ (r : RegIdx) (a l : Nat), evLd r a l = evSetarg a l ++ evIssue (.b2i r) ++ evWait ∧
    evSt r a l = evSetarg a l ++ evIssue (.i2bfix r) ++ evWait) ∧
  (∀ r : RegIdx, evZero r = evSetarg 0 0 ++ evIssue (.b2i r) ++ evWait)

/-- R101, `wait`: a host turn reads STATUS once, and the host sees the value; with bit 0 of it set the loop goes on, else it is
over and the program goes on after it. Bit 0 is BUSY (R26), so on an idle block the loop makes one read. The form of a host
program is the model's own (log entry 21). -/
def Obligations.WaitReadsStatusUntilBusyIsClear : Prop :=
  ∀ (p : List HostOp) (s : State),
    let v := hostRead 0x0004#16 .four s
    let t := { s with reads := v :: s.reads }
    (bitsOf v 0 0 = 1 → programTurn .host (evWait ++ p) s = .next (evWait ++ p, t)) ∧
    (bitsOf v 0 0 = 0 → programTurn .host (evWait ++ p) s = .next (p, t)) ∧
    (bitsOf v 0 0 = 1 ↔ s.busy = true)

/-- R296: a `wait` never hangs. However the turns of host and engine have gone, once the engine has its turn (the fairness of
R290) the host's next read finds BUSY clear and the loop is over. The turns are the model's own (log entry 21); that a command
over unwritten storage ends too is the model's choice (log entry 5). -/
def Obligations.WaitLoopEnds : Prop :=
  ∀ (s : State) (ts : List Turn), s.Inv →
    ∃ t, runProgram (ts ++ [.engine, .host]) evWait s = .next ([], t) ∧ t.busy = false ∧ t.inflight = none ∧ t.Inv
end

