-- ==== Sys2Proof/Laws/Memory.lean ====
section
/-! SUPPORT. The basic laws of the byte buffer: read after write, frames, and the canonical form. -/

namespace Sys2Proof.Machine

@[simp] theorem read_nil (a : Nat) : Memory.read [] a = none := rfl

theorem read_cons (p : Host.Cell) (m : Memory) (a : Nat) :
    Memory.read (p :: m) a = if p.1 = a then some p.2 else Memory.read m a := rfl

/-- No entry of a list above `b` is at or below `b`, so reading there finds nothing. -/
theorem read_none_of_lt {m : Memory} {b : Nat} (h : ∀ p ∈ m, b < p.1) : Memory.read m b = none := by
  induction m with
  | nil => rfl
  | cons p m ih =>
    have hp := h p (by simp)
    rw [read_cons, if_neg (by omega)]
    exact ih fun q hq => h q (by simp [hq])

/-- Reading the byte just written. -/
@[simp] theorem read_write_same (m : Memory) (a : Nat) (v : Byte) : Memory.read (Memory.write m a v) a = some v := by
  induction m with
  | nil => simp [Memory.write, read_cons]
  | cons p m ih =>
    obtain ⟨b, u⟩ := p
    simp only [Memory.write]
    split
    · simp [read_cons]
    · split
      · simp [read_cons]
      · rw [read_cons, if_neg (by simp; omega), ih]

/-- A write leaves every other byte alone. -/
theorem read_write_other {a b : Nat} (m : Memory) (v : Byte) (h : b ≠ a) :
    Memory.read (Memory.write m a v) b = Memory.read m b := by
  induction m with
  | nil => simp [Memory.write, read_cons, Ne.symm h]
  | cons p m ih =>
    obtain ⟨c, u⟩ := p
    simp only [Memory.write]
    split
    · rw [read_cons, if_neg (by simp; omega)]
    · split
      · subst_vars; simp [read_cons, Ne.symm h]
      · rw [read_cons, read_cons, ih]

/-- What a written list holds is the new entry or an old one. -/
theorem mem_write {m : Memory} {a : Nat} {v : Byte} {p : Host.Cell} (h : p ∈ Memory.write m a v) :
    p = (a, v) ∨ p ∈ m := by
  induction m with
  | nil => simpa [Memory.write] using h
  | cons q m ih =>
    obtain ⟨b, u⟩ := q
    simp only [Memory.write] at h
    split at h
    · simpa using h
    · split at h
      · simp at h; rcases h with h | h <;> simp [h]
      · simp at h
        rcases h with h | h
        · simp [h]
        · rcases ih h with h | h <;> simp [h]

/-- A write keeps the canonical form. -/
theorem write_wf {m : Memory} (a : Nat) (v : Byte) (h : Memory.wf m) : Memory.wf (Memory.write m a v) := by
  induction m with
  | nil => simp [Memory.write]
  | cons q m ih =>
    obtain ⟨b, u⟩ := q
    have hb := List.pairwise_cons.mp h
    simp only [Memory.write]
    split
    · rename_i hab
      refine List.pairwise_cons.mpr ⟨fun p hp => ?_, h⟩
      rcases List.mem_cons.mp hp with rfl | hp
      · exact hab
      · exact lt_trans hab (hb.1 p hp)
    · split
      · subst_vars; exact List.pairwise_cons.mpr ⟨hb.1, hb.2⟩
      · refine List.pairwise_cons.mpr ⟨fun p hp => ?_, ih hb.2⟩
        rcases mem_write hp with rfl | hp
        · show b < a; omega
        · exact hb.1 p hp

/-- A property of entries that the new entry has too is kept by a write. -/
theorem write_forall {P : Host.Cell → Prop} {m : Memory} {a : Nat} {v : Byte} (h : ∀ p ∈ m, P p) (hv : P (a, v)) :
    ∀ p ∈ Memory.write m a v, P p := fun p hp => by
  rcases mem_write hp with rfl | hp
  · exact hv
  · exact h p hp

/-! ### `MemWrite` of several bytes -/

/-- The first `n` single-byte writes of a wider write. -/
def writeBytes (m : Memory) (a len v n : Nat) : Memory :=
  (List.range n).foldl (fun acc i => Memory.write acc (a + i) (byteBE len v i)) m

theorem writeBE_eq (m : Memory) (a n v : Nat) : Memory.writeBE m a n v = writeBytes m a n v n := rfl

@[simp] theorem writeBytes_zero (m : Memory) (a len v : Nat) : writeBytes m a len v 0 = m := rfl

theorem writeBytes_succ (m : Memory) (a len v n : Nat) :
    writeBytes m a len v (n + 1) = Memory.write (writeBytes m a len v n) (a + n) (byteBE len v n) := by
  simp [writeBytes, List.range_succ]

theorem read_writeBytes (m : Memory) (a len v n b : Nat) :
    Memory.read (writeBytes m a len v n) b =
      if a ≤ b ∧ b < a + n then some (byteBE len v (b - a)) else Memory.read m b := by
  induction n with
  | zero => rw [if_neg (by omega)]; rfl
  | succ n ih =>
    rw [writeBytes_succ]
    by_cases h : b = a + n
    · subst h; rw [read_write_same, if_pos (by omega)]; simp
    · rw [read_write_other _ _ h, ih]
      by_cases h2 : a ≤ b ∧ b < a + n
      · rw [if_pos h2, if_pos (by omega)]
      · rw [if_neg h2, if_neg (by omega)]

/-- Everything `MemWrite` does: the `n` bytes from `a` are those of `v`, every other byte is as before (R13). -/
theorem read_writeBE (m : Memory) (a n v b : Nat) :
    Memory.read (Memory.writeBE m a n v) b =
      if a ≤ b ∧ b < a + n then some (byteBE n v (b - a)) else Memory.read m b :=
  read_writeBytes m a n v n b

theorem writeBytes_wf {m : Memory} (a len v n : Nat) (h : Memory.wf m) : Memory.wf (writeBytes m a len v n) := by
  induction n with
  | zero => exact h
  | succ n ih => rw [writeBytes_succ]; exact write_wf _ _ ih

/-- `MemWrite` keeps the canonical form. -/
theorem writeBE_wf {m : Memory} (a n v : Nat) (h : Memory.wf m) : Memory.wf (Memory.writeBE m a n v) :=
  writeBytes_wf a n v n h

theorem writeBytes_bound {m : Memory} {bound : Nat} (a len v n : Nat) (h : ∀ p ∈ m, p.1 < bound) (hn : a + n ≤ bound) :
    ∀ p ∈ writeBytes m a len v n, p.1 < bound := by
  induction n with
  | zero => exact h
  | succ n ih =>
    rw [writeBytes_succ]
    exact write_forall (P := fun p => p.1 < bound) (ih (by omega)) (by show a + n < bound; omega)

/-- `MemWrite` inside the buffer leaves every listed index inside the buffer. -/
theorem writeBE_bound {m : Memory} {bound : Nat} (a n v : Nat) (h : ∀ p ∈ m, p.1 < bound) (hn : a + n ≤ bound) :
    ∀ p ∈ Memory.writeBE m a n v, p.1 < bound := writeBytes_bound a n v n h hn

/-! ### `MemRead` -/

/-- `MemRead` is determined by the bytes it covers. -/
theorem readBE_congr {f g : Nat → Byte} {a n : Nat} (h : ∀ k < n, f (a + k) = g (a + k)) :
    readBE f a n = readBE g a n := by
  induction n generalizing a with
  | zero => rfl
  | succ n ih =>
    have h0 := h 0 (by omega)
    simp only [Nat.add_zero] at h0
    simp only [readBE, h0]
    rw [ih fun k hk => ?_]
    have := h (k + 1) (by omega)
    rwa [show a + (k + 1) = a + 1 + k by omega] at this

/-- The value of `n` bytes is below `256^n`. -/
theorem readBE_lt (f : Nat → Byte) (a n : Nat) : readBE f a n < 256 ^ n := by
  induction n generalizing a with
  | zero => simp [readBE]
  | succ n ih =>
    have hb : (f a).toNat < 256 := (f a).isLt
    have := ih (a + 1)
    simp only [readBE, pow_succ]
    nlinarith [Nat.mul_le_mul_right (256 ^ n) (Nat.le_of_lt_succ hb)]

end Sys2Proof.Machine
end

