-- ==== Sys2Proof/Laws/State.lean ====
section
/-! SUPPORT. One lemma per field per update of the state, true by rfl. -/

namespace Sys2Proof.Machine

/-! `setX` -/

@[simp] theorem setX_par (s : State) (i : RegIdx) (v : Nat) : (s.setX i v).par = s.par := rfl
@[simp] theorem setX_regs (s : State) (i : RegIdx) (v : Nat) : (s.setX i v).regs = s.regs.set i.toNat { val := v, written := true } := rfl
@[simp] theorem setX_buf (s : State) (i : RegIdx) (v : Nat) : (s.setX i v).buf = s.buf := rfl
@[simp] theorem setX_busy (s : State) (i : RegIdx) (v : Nat) : (s.setX i v).busy = s.busy := rfl
@[simp] theorem setX_done (s : State) (i : RegIdx) (v : Nat) : (s.setX i v).done = s.done := rfl
@[simp] theorem setX_err (s : State) (i : RegIdx) (v : Nat) : (s.setX i v).err = s.err := rfl
@[simp] theorem setX_ovr (s : State) (i : RegIdx) (v : Nat) : (s.setX i v).ovr = s.ovr := rfl
@[simp] theorem setX_c (s : State) (i : RegIdx) (v : Nat) : (s.setX i v).c = s.c := rfl
@[simp] theorem setX_ie (s : State) (i : RegIdx) (v : Nat) : (s.setX i v).ie = s.ie := rfl
@[simp] theorem setX_errcode (s : State) (i : RegIdx) (v : Nat) : (s.setX i v).errcode = s.errcode := rfl
@[simp] theorem setX_arg (s : State) (i : RegIdx) (v : Nat) : (s.setX i v).arg = s.arg := rfl
@[simp] theorem setX_reslen (s : State) (i : RegIdx) (v : Nat) : (s.setX i v).reslen = s.reslen := rfl
@[simp] theorem setX_inflight (s : State) (i : RegIdx) (v : Nat) : (s.setX i v).inflight = s.inflight := rfl
@[simp] theorem setX_fault (s : State) (i : RegIdx) (v : Nat) : (s.setX i v).fault = s.fault := rfl
@[simp] theorem setX_schedule (s : State) (i : RegIdx) (v : Nat) : (s.setX i v).schedule = s.schedule := rfl
@[simp] theorem setX_reads (s : State) (i : RegIdx) (v : Nat) : (s.setX i v).reads = s.reads := rfl
@[simp] theorem setX_draws (s : State) (i : RegIdx) (v : Nat) : (s.setX i v).draws = s.draws := rfl

/-! `memWrite` -/

@[simp] theorem memWrite_par (s : State) (a n v : Nat) : (s.memWrite a n v).par = s.par := rfl
@[simp] theorem memWrite_regs (s : State) (a n v : Nat) : (s.memWrite a n v).regs = s.regs := rfl
@[simp] theorem memWrite_buf (s : State) (a n v : Nat) : (s.memWrite a n v).buf = Memory.writeBE s.buf a n v := rfl
@[simp] theorem memWrite_busy (s : State) (a n v : Nat) : (s.memWrite a n v).busy = s.busy := rfl
@[simp] theorem memWrite_done (s : State) (a n v : Nat) : (s.memWrite a n v).done = s.done := rfl
@[simp] theorem memWrite_err (s : State) (a n v : Nat) : (s.memWrite a n v).err = s.err := rfl
@[simp] theorem memWrite_ovr (s : State) (a n v : Nat) : (s.memWrite a n v).ovr = s.ovr := rfl
@[simp] theorem memWrite_c (s : State) (a n v : Nat) : (s.memWrite a n v).c = s.c := rfl
@[simp] theorem memWrite_ie (s : State) (a n v : Nat) : (s.memWrite a n v).ie = s.ie := rfl
@[simp] theorem memWrite_errcode (s : State) (a n v : Nat) : (s.memWrite a n v).errcode = s.errcode := rfl
@[simp] theorem memWrite_arg (s : State) (a n v : Nat) : (s.memWrite a n v).arg = s.arg := rfl
@[simp] theorem memWrite_reslen (s : State) (a n v : Nat) : (s.memWrite a n v).reslen = s.reslen := rfl
@[simp] theorem memWrite_inflight (s : State) (a n v : Nat) : (s.memWrite a n v).inflight = s.inflight := rfl
@[simp] theorem memWrite_fault (s : State) (a n v : Nat) : (s.memWrite a n v).fault = s.fault := rfl
@[simp] theorem memWrite_schedule (s : State) (a n v : Nat) : (s.memWrite a n v).schedule = s.schedule := rfl
@[simp] theorem memWrite_reads (s : State) (a n v : Nat) : (s.memWrite a n v).reads = s.reads := rfl
@[simp] theorem memWrite_draws (s : State) (a n v : Nat) : (s.memWrite a n v).draws = s.draws := rfl

/-! `setC` -/

@[simp] theorem setC_par (s : State) (b : Bool) : (s.setC b).par = s.par := rfl
@[simp] theorem setC_regs (s : State) (b : Bool) : (s.setC b).regs = s.regs := rfl
@[simp] theorem setC_buf (s : State) (b : Bool) : (s.setC b).buf = s.buf := rfl
@[simp] theorem setC_busy (s : State) (b : Bool) : (s.setC b).busy = s.busy := rfl
@[simp] theorem setC_done (s : State) (b : Bool) : (s.setC b).done = s.done := rfl
@[simp] theorem setC_err (s : State) (b : Bool) : (s.setC b).err = s.err := rfl
@[simp] theorem setC_ovr (s : State) (b : Bool) : (s.setC b).ovr = s.ovr := rfl
@[simp] theorem setC_c (s : State) (b : Bool) : (s.setC b).c = b := rfl
@[simp] theorem setC_ie (s : State) (b : Bool) : (s.setC b).ie = s.ie := rfl
@[simp] theorem setC_errcode (s : State) (b : Bool) : (s.setC b).errcode = s.errcode := rfl
@[simp] theorem setC_arg (s : State) (b : Bool) : (s.setC b).arg = s.arg := rfl
@[simp] theorem setC_reslen (s : State) (b : Bool) : (s.setC b).reslen = s.reslen := rfl
@[simp] theorem setC_inflight (s : State) (b : Bool) : (s.setC b).inflight = s.inflight := rfl
@[simp] theorem setC_fault (s : State) (b : Bool) : (s.setC b).fault = s.fault := rfl
@[simp] theorem setC_schedule (s : State) (b : Bool) : (s.setC b).schedule = s.schedule := rfl
@[simp] theorem setC_reads (s : State) (b : Bool) : (s.setC b).reads = s.reads := rfl
@[simp] theorem setC_draws (s : State) (b : Bool) : (s.setC b).draws = s.draws := rfl

/-! `setReslen` -/

@[simp] theorem setReslen_par (s : State) (n : Nat) : (s.setReslen n).par = s.par := rfl
@[simp] theorem setReslen_regs (s : State) (n : Nat) : (s.setReslen n).regs = s.regs := rfl
@[simp] theorem setReslen_buf (s : State) (n : Nat) : (s.setReslen n).buf = s.buf := rfl
@[simp] theorem setReslen_busy (s : State) (n : Nat) : (s.setReslen n).busy = s.busy := rfl
@[simp] theorem setReslen_done (s : State) (n : Nat) : (s.setReslen n).done = s.done := rfl
@[simp] theorem setReslen_err (s : State) (n : Nat) : (s.setReslen n).err = s.err := rfl
@[simp] theorem setReslen_ovr (s : State) (n : Nat) : (s.setReslen n).ovr = s.ovr := rfl
@[simp] theorem setReslen_c (s : State) (n : Nat) : (s.setReslen n).c = s.c := rfl
@[simp] theorem setReslen_ie (s : State) (n : Nat) : (s.setReslen n).ie = s.ie := rfl
@[simp] theorem setReslen_errcode (s : State) (n : Nat) : (s.setReslen n).errcode = s.errcode := rfl
@[simp] theorem setReslen_arg (s : State) (n : Nat) : (s.setReslen n).arg = s.arg := rfl
@[simp] theorem setReslen_reslen (s : State) (n : Nat) : (s.setReslen n).reslen = BitVec.ofNat 16 n := rfl
@[simp] theorem setReslen_inflight (s : State) (n : Nat) : (s.setReslen n).inflight = s.inflight := rfl
@[simp] theorem setReslen_fault (s : State) (n : Nat) : (s.setReslen n).fault = s.fault := rfl
@[simp] theorem setReslen_schedule (s : State) (n : Nat) : (s.setReslen n).schedule = s.schedule := rfl
@[simp] theorem setReslen_reads (s : State) (n : Nat) : (s.setReslen n).reads = s.reads := rfl
@[simp] theorem setReslen_draws (s : State) (n : Nat) : (s.setReslen n).draws = s.draws := rfl

/-! `markUnwritten` -/

@[simp] theorem markUnwritten_par (s : State) (i : Instr) : (s.markUnwritten i).par = s.par := rfl
@[simp] theorem markUnwritten_regs (s : State) (i : Instr) : (s.markUnwritten i).regs = s.regs := rfl
@[simp] theorem markUnwritten_buf (s : State) (i : Instr) : (s.markUnwritten i).buf = s.buf := rfl
@[simp] theorem markUnwritten_busy (s : State) (i : Instr) : (s.markUnwritten i).busy = s.busy := rfl
@[simp] theorem markUnwritten_done (s : State) (i : Instr) : (s.markUnwritten i).done = s.done := rfl
@[simp] theorem markUnwritten_err (s : State) (i : Instr) : (s.markUnwritten i).err = s.err := rfl
@[simp] theorem markUnwritten_ovr (s : State) (i : Instr) : (s.markUnwritten i).ovr = s.ovr := rfl
@[simp] theorem markUnwritten_c (s : State) (i : Instr) : (s.markUnwritten i).c = s.c := rfl
@[simp] theorem markUnwritten_ie (s : State) (i : Instr) : (s.markUnwritten i).ie = s.ie := rfl
@[simp] theorem markUnwritten_errcode (s : State) (i : Instr) : (s.markUnwritten i).errcode = s.errcode := rfl
@[simp] theorem markUnwritten_arg (s : State) (i : Instr) : (s.markUnwritten i).arg = s.arg := rfl
@[simp] theorem markUnwritten_reslen (s : State) (i : Instr) : (s.markUnwritten i).reslen = s.reslen := rfl
@[simp] theorem markUnwritten_inflight (s : State) (i : Instr) : (s.markUnwritten i).inflight = s.inflight := rfl
@[simp] theorem markUnwritten_fault (s : State) (i : Instr) : (s.markUnwritten i).fault = s.fault.or (some (.unwrittenRead i)) := rfl
@[simp] theorem markUnwritten_schedule (s : State) (i : Instr) : (s.markUnwritten i).schedule = s.schedule := rfl
@[simp] theorem markUnwritten_reads (s : State) (i : Instr) : (s.markUnwritten i).reads = s.reads := rfl
@[simp] theorem markUnwritten_draws (s : State) (i : Instr) : (s.markUnwritten i).draws = s.draws := rfl

/-! `nextDraws` -/

@[simp] theorem nextDraws_par (s : State) : s.nextDraws.par = s.par := rfl
@[simp] theorem nextDraws_regs (s : State) : s.nextDraws.regs = s.regs := rfl
@[simp] theorem nextDraws_buf (s : State) : s.nextDraws.buf = s.buf := rfl
@[simp] theorem nextDraws_busy (s : State) : s.nextDraws.busy = s.busy := rfl
@[simp] theorem nextDraws_done (s : State) : s.nextDraws.done = s.done := rfl
@[simp] theorem nextDraws_err (s : State) : s.nextDraws.err = s.err := rfl
@[simp] theorem nextDraws_ovr (s : State) : s.nextDraws.ovr = s.ovr := rfl
@[simp] theorem nextDraws_c (s : State) : s.nextDraws.c = s.c := rfl
@[simp] theorem nextDraws_ie (s : State) : s.nextDraws.ie = s.ie := rfl
@[simp] theorem nextDraws_errcode (s : State) : s.nextDraws.errcode = s.errcode := rfl
@[simp] theorem nextDraws_arg (s : State) : s.nextDraws.arg = s.arg := rfl
@[simp] theorem nextDraws_reslen (s : State) : s.nextDraws.reslen = s.reslen := rfl
@[simp] theorem nextDraws_inflight (s : State) : s.nextDraws.inflight = s.inflight := rfl
@[simp] theorem nextDraws_fault (s : State) : s.nextDraws.fault = s.fault := rfl
@[simp] theorem nextDraws_schedule (s : State) : s.nextDraws.schedule = s.schedule := rfl
@[simp] theorem nextDraws_reads (s : State) : s.nextDraws.reads = s.reads := rfl
@[simp] theorem nextDraws_draws (s : State) : s.nextDraws.draws = s.draws + s.par.bufBytes := rfl

/-! `complete` -/

@[simp] theorem complete_par (s : State) : s.complete.par = s.par := rfl
@[simp] theorem complete_regs (s : State) : s.complete.regs = s.regs := rfl
@[simp] theorem complete_buf (s : State) : s.complete.buf = s.buf := rfl
@[simp] theorem complete_busy (s : State) : s.complete.busy = false := rfl
@[simp] theorem complete_done (s : State) : s.complete.done = true := rfl
@[simp] theorem complete_err (s : State) : s.complete.err = s.err := rfl
@[simp] theorem complete_ovr (s : State) : s.complete.ovr = s.ovr := rfl
@[simp] theorem complete_c (s : State) : s.complete.c = s.c := rfl
@[simp] theorem complete_ie (s : State) : s.complete.ie = s.ie := rfl
@[simp] theorem complete_errcode (s : State) : s.complete.errcode = s.errcode := rfl
@[simp] theorem complete_arg (s : State) : s.complete.arg = s.arg := rfl
@[simp] theorem complete_reslen (s : State) : s.complete.reslen = s.reslen := rfl
@[simp] theorem complete_inflight (s : State) : s.complete.inflight = none := rfl
@[simp] theorem complete_fault (s : State) : s.complete.fault = s.fault := rfl
@[simp] theorem complete_schedule (s : State) : s.complete.schedule = s.schedule := rfl
@[simp] theorem complete_reads (s : State) : s.complete.reads = s.reads := rfl
@[simp] theorem complete_draws (s : State) : s.complete.draws = s.draws := rfl

/-! `raise` -/

@[simp] theorem raise_par (s : State) (e : ErrorCode) : (s.raise e).par = s.par := rfl
@[simp] theorem raise_regs (s : State) (e : ErrorCode) : (s.raise e).regs = s.regs := rfl
@[simp] theorem raise_buf (s : State) (e : ErrorCode) : (s.raise e).buf = s.buf := rfl
@[simp] theorem raise_busy (s : State) (e : ErrorCode) : (s.raise e).busy = false := rfl
@[simp] theorem raise_done (s : State) (e : ErrorCode) : (s.raise e).done = true := rfl
@[simp] theorem raise_err (s : State) (e : ErrorCode) : (s.raise e).err = true := rfl
@[simp] theorem raise_ovr (s : State) (e : ErrorCode) : (s.raise e).ovr = s.ovr := rfl
@[simp] theorem raise_c (s : State) (e : ErrorCode) : (s.raise e).c = s.c := rfl
@[simp] theorem raise_ie (s : State) (e : ErrorCode) : (s.raise e).ie = s.ie := rfl
@[simp] theorem raise_errcode (s : State) (e : ErrorCode) : (s.raise e).errcode = errorBits e := rfl
@[simp] theorem raise_arg (s : State) (e : ErrorCode) : (s.raise e).arg = s.arg := rfl
@[simp] theorem raise_reslen (s : State) (e : ErrorCode) : (s.raise e).reslen = s.reslen := rfl
@[simp] theorem raise_inflight (s : State) (e : ErrorCode) : (s.raise e).inflight = none := rfl
@[simp] theorem raise_fault (s : State) (e : ErrorCode) : (s.raise e).fault = s.fault := rfl
@[simp] theorem raise_schedule (s : State) (e : ErrorCode) : (s.raise e).schedule = s.schedule := rfl
@[simp] theorem raise_reads (s : State) (e : ErrorCode) : (s.raise e).reads = s.reads := rfl
@[simp] theorem raise_draws (s : State) (e : ErrorCode) : (s.raise e).draws = s.draws := rfl

/-! `leaveUncomputed` -/

@[simp] theorem leaveUncomputed_par (s : State) (i : Instr) : (s.leaveUncomputed i).par = s.par := rfl
@[simp] theorem leaveUncomputed_regs (s : State) (i : Instr) : (s.leaveUncomputed i).regs = s.regs := rfl
@[simp] theorem leaveUncomputed_buf (s : State) (i : Instr) : (s.leaveUncomputed i).buf = s.buf := rfl
@[simp] theorem leaveUncomputed_busy (s : State) (i : Instr) : (s.leaveUncomputed i).busy = false := rfl
@[simp] theorem leaveUncomputed_done (s : State) (i : Instr) : (s.leaveUncomputed i).done = true := rfl
@[simp] theorem leaveUncomputed_err (s : State) (i : Instr) : (s.leaveUncomputed i).err = s.err := rfl
@[simp] theorem leaveUncomputed_ovr (s : State) (i : Instr) : (s.leaveUncomputed i).ovr = s.ovr := rfl
@[simp] theorem leaveUncomputed_c (s : State) (i : Instr) : (s.leaveUncomputed i).c = s.c := rfl
@[simp] theorem leaveUncomputed_ie (s : State) (i : Instr) : (s.leaveUncomputed i).ie = s.ie := rfl
@[simp] theorem leaveUncomputed_errcode (s : State) (i : Instr) : (s.leaveUncomputed i).errcode = s.errcode := rfl
@[simp] theorem leaveUncomputed_arg (s : State) (i : Instr) : (s.leaveUncomputed i).arg = s.arg := rfl
@[simp] theorem leaveUncomputed_reslen (s : State) (i : Instr) : (s.leaveUncomputed i).reslen = s.reslen := rfl
@[simp] theorem leaveUncomputed_inflight (s : State) (i : Instr) : (s.leaveUncomputed i).inflight = none := rfl
@[simp] theorem leaveUncomputed_fault (s : State) (i : Instr) : (s.leaveUncomputed i).fault = s.fault.or (some (.unwrittenRead i)) := rfl
@[simp] theorem leaveUncomputed_schedule (s : State) (i : Instr) : (s.leaveUncomputed i).schedule = s.schedule := rfl
@[simp] theorem leaveUncomputed_reads (s : State) (i : Instr) : (s.leaveUncomputed i).reads = s.reads := rfl
@[simp] theorem leaveUncomputed_draws (s : State) (i : Instr) : (s.leaveUncomputed i).draws = s.draws := rfl

/-! `accept` -/

@[simp] theorem accept_par (s : State) (w : Word) : (s.accept w).par = s.par := rfl
@[simp] theorem accept_regs (s : State) (w : Word) : (s.accept w).regs = s.regs := rfl
@[simp] theorem accept_buf (s : State) (w : Word) : (s.accept w).buf = s.buf := rfl
@[simp] theorem accept_busy (s : State) (w : Word) : (s.accept w).busy = true := rfl
@[simp] theorem accept_done (s : State) (w : Word) : (s.accept w).done = false := rfl
@[simp] theorem accept_err (s : State) (w : Word) : (s.accept w).err = false := rfl
@[simp] theorem accept_ovr (s : State) (w : Word) : (s.accept w).ovr = s.ovr := rfl
@[simp] theorem accept_c (s : State) (w : Word) : (s.accept w).c = s.c := rfl
@[simp] theorem accept_ie (s : State) (w : Word) : (s.accept w).ie = s.ie := rfl
@[simp] theorem accept_errcode (s : State) (w : Word) : (s.accept w).errcode = 0#4 := rfl
@[simp] theorem accept_arg (s : State) (w : Word) : (s.accept w).arg = s.arg := rfl
@[simp] theorem accept_reslen (s : State) (w : Word) : (s.accept w).reslen = s.reslen := rfl
@[simp] theorem accept_inflight (s : State) (w : Word) : (s.accept w).inflight = some { cmd := w, arg := s.arg } := rfl
@[simp] theorem accept_fault (s : State) (w : Word) : (s.accept w).fault = s.fault := rfl
@[simp] theorem accept_schedule (s : State) (w : Word) : (s.accept w).schedule = s.schedule := rfl
@[simp] theorem accept_reads (s : State) (w : Word) : (s.accept w).reads = s.reads := rfl
@[simp] theorem accept_draws (s : State) (w : Word) : (s.accept w).draws = s.draws := rfl

/-! `overrun` -/

@[simp] theorem overrun_par (s : State) : s.overrun.par = s.par := rfl
@[simp] theorem overrun_regs (s : State) : s.overrun.regs = s.regs := rfl
@[simp] theorem overrun_buf (s : State) : s.overrun.buf = s.buf := rfl
@[simp] theorem overrun_busy (s : State) : s.overrun.busy = s.busy := rfl
@[simp] theorem overrun_done (s : State) : s.overrun.done = s.done := rfl
@[simp] theorem overrun_err (s : State) : s.overrun.err = s.err := rfl
@[simp] theorem overrun_ovr (s : State) : s.overrun.ovr = true := rfl
@[simp] theorem overrun_c (s : State) : s.overrun.c = s.c := rfl
@[simp] theorem overrun_ie (s : State) : s.overrun.ie = s.ie := rfl
@[simp] theorem overrun_errcode (s : State) : s.overrun.errcode = s.errcode := rfl
@[simp] theorem overrun_arg (s : State) : s.overrun.arg = s.arg := rfl
@[simp] theorem overrun_reslen (s : State) : s.overrun.reslen = s.reslen := rfl
@[simp] theorem overrun_inflight (s : State) : s.overrun.inflight = s.inflight := rfl
@[simp] theorem overrun_fault (s : State) : s.overrun.fault = s.fault := rfl
@[simp] theorem overrun_schedule (s : State) : s.overrun.schedule = s.schedule := rfl
@[simp] theorem overrun_reads (s : State) : s.overrun.reads = s.reads := rfl
@[simp] theorem overrun_draws (s : State) : s.overrun.draws = s.draws := rfl

/-! `observe` -/

@[simp] theorem observe_par (s : State) (v : Word) : (s.observe v).par = s.par := rfl
@[simp] theorem observe_regs (s : State) (v : Word) : (s.observe v).regs = s.regs := rfl
@[simp] theorem observe_buf (s : State) (v : Word) : (s.observe v).buf = s.buf := rfl
@[simp] theorem observe_busy (s : State) (v : Word) : (s.observe v).busy = s.busy := rfl
@[simp] theorem observe_done (s : State) (v : Word) : (s.observe v).done = s.done := rfl
@[simp] theorem observe_err (s : State) (v : Word) : (s.observe v).err = s.err := rfl
@[simp] theorem observe_ovr (s : State) (v : Word) : (s.observe v).ovr = s.ovr := rfl
@[simp] theorem observe_c (s : State) (v : Word) : (s.observe v).c = s.c := rfl
@[simp] theorem observe_ie (s : State) (v : Word) : (s.observe v).ie = s.ie := rfl
@[simp] theorem observe_errcode (s : State) (v : Word) : (s.observe v).errcode = s.errcode := rfl
@[simp] theorem observe_arg (s : State) (v : Word) : (s.observe v).arg = s.arg := rfl
@[simp] theorem observe_reslen (s : State) (v : Word) : (s.observe v).reslen = s.reslen := rfl
@[simp] theorem observe_inflight (s : State) (v : Word) : (s.observe v).inflight = s.inflight := rfl
@[simp] theorem observe_fault (s : State) (v : Word) : (s.observe v).fault = s.fault := rfl
@[simp] theorem observe_schedule (s : State) (v : Word) : (s.observe v).schedule = s.schedule := rfl
@[simp] theorem observe_reads (s : State) (v : Word) : (s.observe v).reads = v :: s.reads := rfl
@[simp] theorem observe_draws (s : State) (v : Word) : (s.observe v).draws = s.draws := rfl

/-! `writeStatus` -/

@[simp] theorem writeStatus_par (s : State) (d : Word) : (s.writeStatus d).par = s.par := rfl
@[simp] theorem writeStatus_regs (s : State) (d : Word) : (s.writeStatus d).regs = s.regs := rfl
@[simp] theorem writeStatus_buf (s : State) (d : Word) : (s.writeStatus d).buf = s.buf := rfl
@[simp] theorem writeStatus_busy (s : State) (d : Word) : (s.writeStatus d).busy = s.busy := rfl
@[simp] theorem writeStatus_done (s : State) (d : Word) : (s.writeStatus d).done = (s.done && !d.getLsbD 1) := rfl
@[simp] theorem writeStatus_err (s : State) (d : Word) : (s.writeStatus d).err = s.err := rfl
@[simp] theorem writeStatus_ovr (s : State) (d : Word) : (s.writeStatus d).ovr = (s.ovr && !d.getLsbD 3) := rfl
@[simp] theorem writeStatus_c (s : State) (d : Word) : (s.writeStatus d).c = s.c := rfl
@[simp] theorem writeStatus_ie (s : State) (d : Word) : (s.writeStatus d).ie = s.ie := rfl
@[simp] theorem writeStatus_errcode (s : State) (d : Word) : (s.writeStatus d).errcode = s.errcode := rfl
@[simp] theorem writeStatus_arg (s : State) (d : Word) : (s.writeStatus d).arg = s.arg := rfl
@[simp] theorem writeStatus_reslen (s : State) (d : Word) : (s.writeStatus d).reslen = s.reslen := rfl
@[simp] theorem writeStatus_inflight (s : State) (d : Word) : (s.writeStatus d).inflight = s.inflight := rfl
@[simp] theorem writeStatus_fault (s : State) (d : Word) : (s.writeStatus d).fault = s.fault := rfl
@[simp] theorem writeStatus_schedule (s : State) (d : Word) : (s.writeStatus d).schedule = s.schedule := rfl
@[simp] theorem writeStatus_reads (s : State) (d : Word) : (s.writeStatus d).reads = s.reads := rfl
@[simp] theorem writeStatus_draws (s : State) (d : Word) : (s.writeStatus d).draws = s.draws := rfl

/-! `writeCtrl` -/

@[simp] theorem writeCtrl_par (s : State) (d : Word) : (s.writeCtrl d).par = s.par := rfl
@[simp] theorem writeCtrl_regs (s : State) (d : Word) : (s.writeCtrl d).regs = s.regs := rfl
@[simp] theorem writeCtrl_buf (s : State) (d : Word) : (s.writeCtrl d).buf = s.buf := rfl
@[simp] theorem writeCtrl_busy (s : State) (d : Word) : (s.writeCtrl d).busy = s.busy := rfl
@[simp] theorem writeCtrl_done (s : State) (d : Word) : (s.writeCtrl d).done = s.done := rfl
@[simp] theorem writeCtrl_err (s : State) (d : Word) : (s.writeCtrl d).err = s.err := rfl
@[simp] theorem writeCtrl_ovr (s : State) (d : Word) : (s.writeCtrl d).ovr = s.ovr := rfl
@[simp] theorem writeCtrl_c (s : State) (d : Word) : (s.writeCtrl d).c = s.c := rfl
@[simp] theorem writeCtrl_ie (s : State) (d : Word) : (s.writeCtrl d).ie = d.getLsbD 0 := rfl
@[simp] theorem writeCtrl_errcode (s : State) (d : Word) : (s.writeCtrl d).errcode = s.errcode := rfl
@[simp] theorem writeCtrl_arg (s : State) (d : Word) : (s.writeCtrl d).arg = s.arg := rfl
@[simp] theorem writeCtrl_reslen (s : State) (d : Word) : (s.writeCtrl d).reslen = s.reslen := rfl
@[simp] theorem writeCtrl_inflight (s : State) (d : Word) : (s.writeCtrl d).inflight = s.inflight := rfl
@[simp] theorem writeCtrl_fault (s : State) (d : Word) : (s.writeCtrl d).fault = s.fault := rfl
@[simp] theorem writeCtrl_schedule (s : State) (d : Word) : (s.writeCtrl d).schedule = s.schedule := rfl
@[simp] theorem writeCtrl_reads (s : State) (d : Word) : (s.writeCtrl d).reads = s.reads := rfl
@[simp] theorem writeCtrl_draws (s : State) (d : Word) : (s.writeCtrl d).draws = s.draws := rfl

end Sys2Proof.Machine
end

