-- ==== Sys2Proof/Laws/Bus.lean ====
section
/-! SUPPORT. Where an offset leads, and everything a host transaction can do. -/

namespace Sys2Proof.Machine

/-- An offset of the buffer window leads to its buffer index. -/
theorem regionOf_window {a : Nat} (h : a < 0x1000) : regionOf (BitVec.ofNat 16 (0x1000 + a)) = .window a := by
  have h1 : (BitVec.ofNat 16 (0x1000 + a)).toNat = 0x1000 + a := by
    rw [BitVec.toNat_ofNat]; exact Nat.mod_eq_of_lt (by omega)
  unfold regionOf
  rw [h1, if_neg (by omega), if_pos (by omega)]
  exact congrArg Region.window (by omega)

/-- The buffer index of an offset in the window. -/
theorem toNat_of_regionOf_window {addr : Offset} {a : Nat} (h : regionOf addr = .window a) :
    addr.toNat = 0x1000 + a ∧ a < 0x1000 := by
  unfold regionOf at h
  split at h
  · cases h
  · split at h
    · have := Region.window.inj h
      omega
    · cases h

/-- A write is one register write, one buffer byte, or nothing. -/
theorem hostWrite_cases (addr : Offset) (size : Size) (d : Word) (s : State) :
    (size = .four ∧ regionOf addr = .registers ∧ hostWrite addr size d s = s.writeRegister addr d) ∨
    (∃ a, size = .one ∧ regionOf addr = .window a ∧ a < s.par.bufBytes ∧ hostWrite addr size d s = s.writeBuf a d) ∨
    (¬ (size = .four ∧ regionOf addr = .registers) ∧ hostWrite addr size d s = s) := by
  unfold hostWrite
  cases hr : regionOf addr with
  | registers => cases size <;> simp
  | reserved => cases size <;> simp
  | window a =>
    cases size with
    | four => simp
    | one =>
      by_cases h : a < s.par.bufBytes
      · exact .inr (.inl ⟨a, rfl, rfl, h, by simp [h]⟩)
      · exact .inr (.inr ⟨by simp, by simp [h]⟩)

/-- A register write is a CMD, STATUS, ARG or CTRL write at its offset, or nothing. -/
theorem writeRegister_cases (s : State) (addr : Offset) (d : Word) :
    (addr = offCmd ∧ s.writeRegister addr d = s.writeCmd d) ∨
    (addr = offStatus ∧ s.writeRegister addr d = s.writeStatus d) ∨
    (addr = offArg ∧ s.writeRegister addr d = s.writeArg d) ∨
    (addr = offCtrl ∧ s.writeRegister addr d = s.writeCtrl d) ∨
    (addr ≠ offCmd ∧ addr ≠ offStatus ∧ addr ≠ offArg ∧ addr ≠ offCtrl ∧ s.writeRegister addr d = s) := by
  unfold State.writeRegister
  split
  · exact .inl ⟨‹_›, rfl⟩
  · split
    · exact .inr (.inl ⟨‹_›, rfl⟩)
    · split
      · exact .inr (.inr (.inl ⟨‹_›, rfl⟩))
      · split
        · exact .inr (.inr (.inr (.inl ⟨‹_›, rfl⟩)))
        · exact .inr (.inr (.inr (.inr ⟨‹_›, ‹_›, ‹_›, ‹_›, rfl⟩)))

/-- Everything a host transaction can do: observe a value (and number free values), lose a write with OVR, have a command
accepted, write STATUS, ARG, CTRL or one buffer byte, or nothing. -/
theorem hostStep_cases (t : Txn) (s : State) :
    (∃ addr size v n, t = .read addr size ∧ hostStep t s = { s with reads := v :: s.reads, draws := n }) ∨
    (s.busy = true ∧ (∀ w, t ≠ .write offStatus .four w) ∧ (∀ w, t ≠ .write offCtrl .four w) ∧
      hostStep t s = s.overrun) ∨
    (∃ w, t = .write offCmd .four w ∧ s.busy = false ∧ hostStep t s = s.accept w) ∨
    (∃ d, t = .write offStatus .four d ∧ hostStep t s = s.writeStatus d) ∨
    (∃ d, t = .write offArg .four d ∧ s.busy = false ∧ hostStep t s = { s with arg := d }) ∨
    (∃ d, t = .write offCtrl .four d ∧ hostStep t s = s.writeCtrl d) ∨
    (∃ addr a d, t = .write addr .one d ∧ regionOf addr = .window a ∧ a < s.par.bufBytes ∧ s.busy = false ∧
      hostStep t s = { s with buf := Memory.write s.buf a (d.extractLsb' 0 8) }) ∨
    ((∀ w, t ≠ .write offCmd .four w) ∧ (∀ w, t ≠ .write offStatus .four w) ∧ (∀ w, t ≠ .write offCtrl .four w) ∧
      hostStep t s = s) := by
  cases t with
  | read addr size =>
    left
    simp only [hostStep, State.afterRead]
    split
    · split
      · exact ⟨_, _, _, _, rfl, rfl⟩
      · exact ⟨_, _, _, _, rfl, rfl⟩
    · exact ⟨_, _, _, _, rfl, rfl⟩
  | write addr size d =>
    right
    simp only [hostStep]
    rcases hostWrite_cases addr size d s with ⟨rfl, hr, h⟩ | ⟨a, rfl, hr, ha, h⟩ | ⟨hn, h⟩
    · rw [h]
      rcases writeRegister_cases s addr d with ⟨rfl, h⟩ | ⟨rfl, h⟩ | ⟨rfl, h⟩ | ⟨rfl, h⟩ | ⟨h1, h2, h3, h4, h⟩
      · rw [h, State.writeCmd]
        split
        · exact .inl ⟨‹_›, by rintro w ⟨⟩, by rintro w ⟨⟩, rfl⟩
        · exact .inr (.inl ⟨d, rfl, Bool.eq_false_of_not_eq_true ‹_›, rfl⟩)
      · exact .inr (.inr (.inl ⟨d, rfl, h⟩))
      · rw [h, State.writeArg]
        split
        · exact .inl ⟨‹_›, by rintro w ⟨⟩, by rintro w ⟨⟩, rfl⟩
        · exact .inr (.inr (.inr (.inl ⟨d, rfl, Bool.eq_false_of_not_eq_true ‹_›, rfl⟩)))
      · exact .inr (.inr (.inr (.inr (.inl ⟨d, rfl, h⟩))))
      · refine .inr (.inr (.inr (.inr (.inr (.inr ⟨?_, ?_, ?_, h⟩))))) <;> intro w e <;> simp_all
    · rw [h, State.writeBuf]
      split
      · exact .inl ⟨‹_›, by rintro w ⟨⟩, by rintro w ⟨⟩, rfl⟩
      · exact .inr (.inr (.inr (.inr (.inr (.inl ⟨addr, a, d, rfl, hr, ha, Bool.eq_false_of_not_eq_true ‹_›, rfl⟩)))))
    · rw [h]
      have hoff : ∀ off, regionOf off = .registers → ∀ w, Txn.write addr size d ≠ .write off .four w := by
        rintro off hreg w e
        cases e
        exact hn ⟨rfl, hreg⟩
      exact .inr (.inr (.inr (.inr (.inr (.inr
        ⟨hoff _ (by decide), hoff _ (by decide), hoff _ (by decide), rfl⟩)))))

end Sys2Proof.Machine
end

