-- ==== Sys2Proof/Laws/Exec.lean ====
section
/-! SUPPORT. What the shared operations and a command's frame can do, said once for the provers to cite. -/

namespace Sys2Proof.Machine

/-! ### Registers -/

/-- The register read back after a write in range. -/
theorem setX_x_same {s : State} {i : RegIdx} (v : Nat) (h : i.toNat < s.regs.length) : (s.setX i v).x i = v := by
  simp [State.x, h]

/-- A write leaves every other register alone. -/
theorem setX_x_other {i j : RegIdx} (s : State) (v : Nat) (h : j ≠ i) : (s.setX i v).x j = s.x j := by
  have : i.toNat ≠ j.toNat := fun e => h (BitVec.eq_of_toNat_eq e.symm)
  simp [State.x, List.getElem?_set_ne this]

theorem setX_writtenB_same {s : State} {i : RegIdx} (v : Nat) (h : i.toNat < s.regs.length) :
    (s.setX i v).writtenB i = true := by
  simp [State.writtenB, h]

theorem setX_writtenB_other {i j : RegIdx} (s : State) (v : Nat) (h : j ≠ i) :
    (s.setX i v).writtenB j = s.writtenB j := by
  have : i.toNat ≠ j.toNat := fun e => h (BitVec.eq_of_toNat_eq e.symm)
  simp [State.writtenB, List.getElem?_set_ne this]

/-- Reading a register depends on the register file alone. -/
theorem x_congr {s t : State} (h : t.regs = s.regs) (i : RegIdx) : t.x i = s.x i := by simp [State.x, h]

theorem writtenB_congr {s t : State} (h : t.regs = s.regs) (i : RegIdx) : t.writtenB i = s.writtenB i := by
  simp [State.writtenB, h]

/-- ARGLAT depends on the latch, and with nothing in flight on ARG. -/
theorem argLat_congr {s t : State} (h : t.inflight = s.inflight) (ha : t.arg = s.arg) : t.argLat = s.argLat := by
  simp only [State.argLat, h, ha]

theorem argAddr_congr {s t : State} (h : t.inflight = s.inflight) (ha : t.arg = s.arg) : t.argAddr = s.argAddr := by
  simp only [State.argAddr, argLat_congr h ha]

theorem argLen_congr {s t : State} (h : t.inflight = s.inflight) (ha : t.arg = s.arg) : t.argLen = s.argLen := by
  simp only [State.argLen, argLat_congr h ha]

theorem bound_congr {s t : State} (h : t.par = s.par) : t.bound = s.bound := by simp only [State.bound, h]

/-- Reading the buffer depends on the buffer and on the number of the free values. -/
theorem memRead_congr {s t : State} (h : t.buf = s.buf) (hd : t.draws = s.draws) (a n : Nat) :
    t.memRead a n = s.memRead a n :=
  readBE_congr fun k _ => by simp only [State.bufByte, h, hd]

theorem bufWritten_congr {s t : State} (h : t.buf = s.buf) (a n : Nat) : t.bufWritten a n = s.bufWritten a n := by
  simp only [State.bufWritten, State.writtenBuf, h]

/-- With the register file as R21 says, every register read is below `2^W`. -/
theorem x_lt {s : State} (h : ∀ r ∈ s.regs, r.val < 2 ^ s.par.w) (i : RegIdx) : s.x i < 2 ^ s.par.w := by
  unfold State.x
  rcases lt_or_ge i.toNat s.regs.length with hi | hi
  · rw [List.getD_eq_getElem _ _ hi]; exact h _ (List.getElem_mem hi)
  · rw [List.getD_eq_default _ _ hi]; exact Nat.two_pow_pos _

/-! ### What a command reads -/

/-- All bytes written, read as a statement about each. -/
theorem bufWritten_iff {s : State} {a n : Nat} : s.bufWritten a n = true ↔ ∀ k < n, s.writtenBuf (a + k) = true := by
  simp [State.bufWritten]

/-- All source registers written, read as a statement about each. -/
theorem regsWritten_iff {s : State} {i : Instr} : s.regsWritten i = true ↔ ∀ r ∈ i.sources, s.writtenB r = true := by
  simp [State.regsWritten]

@[simp] theorem whenWritten_true (s : State) (i : Instr) (t : State) : s.whenWritten true i t = t := rfl
@[simp] theorem whenWritten_false (s : State) (i : Instr) (t : State) : s.whenWritten false i t = s.leaveUncomputed i := rfl

/-! ### The frame of a command -/

/-- The rule of each command, apart from the checks around it. -/
def ruleOf : Instr → State → State
  | .b2i rd, s =>
    if s.beyondBuffer s.argAddr s.argLen then s.raise .bufferRange
    else s.whenWritten (s.bufWritten s.argAddr s.argLen) (.b2i rd)
      (if s.bound ≤ s.memRead s.argAddr s.argLen then s.raise .encodeOverflow
        else (s.setX rd (s.memRead s.argAddr s.argLen)).complete)
  | .i2bfix rs1, s =>
    if s.beyondBuffer s.argAddr s.argLen then s.raise .bufferRange
    else if s.argLen < minlen (s.x rs1) then s.raise .integerTooLarge
    else ((s.memWrite s.argAddr s.argLen (s.x rs1)).setReslen s.argLen).complete
  | .i2bmin rs1, s =>
    if s.beyondBuffer s.argAddr (minlen (s.x rs1)) then s.raise .bufferRange
    else ((s.memWrite s.argAddr (minlen (s.x rs1)) (s.x rs1)).setReslen (minlen (s.x rs1))).complete
  | .add rd rs1 rs2, s =>
    ((s.setX rd ((s.x rs1 + s.x rs2) % s.bound)).setC (carryOut s.par.w (s.x rs1) (s.x rs2))).complete
  | .sub rd rs1 rs2, s =>
    ((s.setX rd (if s.x rs2 ≤ s.x rs1 then s.x rs1 - s.x rs2 else s.x rs1 + s.bound - s.x rs2)).setC
      (borrowOut (s.x rs1) (s.x rs2))).complete
  | .mullo rd rs1 rs2, s => (s.setX rd (s.x rs1 * s.x rs2 % s.bound)).complete
  | .mulhi rd rs1 rs2, s => (s.setX rd (s.x rs1 * s.x rs2 / s.bound)).complete
  | .montmul rd rs1 rs2 rs3, s =>
    if s.x rs3 % 2 = 0 then s.raise .modulusEven
    else if s.x rs3 ≤ s.x rs1 ∨ s.x rs3 ≤ s.x rs2 then s.raise .operandNotReduced
    else (s.setX rd (mont s.par.w (s.x rs1) (s.x rs2) (s.x rs3))).complete
  | .modexp rd rs1 rs2 rs3, s =>
    if s.x rs3 = 0 then s.raise .modulusZero
    else (s.setX rd (modexp (s.x rs1) (s.x rs2) (s.x rs3))).complete
  | .modexpc rd rs1 rs2 rs3, s =>
    if s.x rs3 ≤ s.x rs1 then s.raise .plaintextTooLarge
    else (s.setX rd (modexp (s.x rs1) (s.x rs2) (s.x rs3))).complete

/-- Every command is its rule inside the shared frame. -/
theorem exec_eq_runCommand (i : Instr) (s : State) : exec i s = runCommand i s (ruleOf i) := by
  cases i <;> rfl

/-- With its registers in range and its sources written, a command is its rule. -/
theorem exec_of_wf {i : Instr} {s : State} (h : i.wf s.par.nreg) (hw : ∀ r ∈ i.sources, s.writtenB r = true) :
    exec i s = .next (ruleOf i s) := by
  simp only [exec_eq_runCommand, runCommand, if_pos h, regsWritten_iff.mpr hw, whenWritten_true]

/-- With its registers in range and a source not written, a command does not compute. -/
theorem exec_of_unwritten {i : Instr} {s : State} (h : i.wf s.par.nreg) (hw : ¬ ∀ r ∈ i.sources, s.writtenB r = true) :
    exec i s = .next (s.leaveUncomputed i) := by
  have e : s.regsWritten i = false := Bool.eq_false_of_not_eq_true fun k => hw (regsWritten_iff.mp k)
  simp only [exec_eq_runCommand, runCommand, if_pos h, e, whenWritten_false]

/-- With a register out of range, every command raises REG_RANGE. -/
theorem exec_of_not_wf {i : Instr} {s : State} (h : ¬ i.wf s.par.nreg) : exec i s = .next (s.raise .regRange) := by
  simp only [exec_eq_runCommand, runCommand, if_neg h]

/-- All a command's rule can do: raise one of the command's own errors, leave a B2I of unwritten bytes uncomputed, or complete
with writes to one register, to the buffer, to C and to RESLEN. -/
theorem ruleOf_cases (i : Instr) (s : State) :
    (∃ e, e ≠ .illegalCmd ∧ e ≠ .regRange ∧ ruleOf i s = s.raise e) ∨
    (∃ rd, i = .b2i rd ∧ ruleOf i s = s.leaveUncomputed i) ∨
    (∃ rd v, i = .b2i rd ∧ v < s.bound ∧ ruleOf i s = (s.setX rd v).complete) ∨
    (∃ a n v, a + n ≤ s.par.bufBytes ∧ (∃ rs1, i = .i2bfix rs1 ∨ i = .i2bmin rs1) ∧
      ruleOf i s = ((s.memWrite a n v).setReslen n).complete) ∨
    (∃ rd v b, (∃ rs1 rs2, i = .add rd rs1 rs2 ∨ i = .sub rd rs1 rs2) ∧ ruleOf i s = ((s.setX rd v).setC b).complete) ∨
    (∃ rd v, rd ∈ i.usedRegs ∧ ruleOf i s = (s.setX rd v).complete) := by
  cases i with
  | b2i rd =>
    simp only [ruleOf]
    split
    · exact .inl ⟨_, by decide, by decide, rfl⟩
    · cases s.bufWritten s.argAddr s.argLen
      · exact .inr (.inl ⟨rd, rfl, rfl⟩)
      · simp only [whenWritten_true]
        split
        · exact .inl ⟨_, by decide, by decide, rfl⟩
        · exact .inr (.inr (.inl ⟨rd, _, rfl, by omega, rfl⟩))
  | i2bfix r =>
    simp only [ruleOf]
    split
    · exact .inl ⟨_, by decide, by decide, rfl⟩
    · split
      · exact .inl ⟨_, by decide, by decide, rfl⟩
      · exact .inr (.inr (.inr (.inl ⟨_, _, _, by omega, ⟨r, .inl rfl⟩, rfl⟩)))
  | i2bmin r =>
    simp only [ruleOf]
    split
    · exact .inl ⟨_, by decide, by decide, rfl⟩
    · exact .inr (.inr (.inr (.inl ⟨_, _, _, by omega, ⟨r, .inr rfl⟩, rfl⟩)))
  | add rd a b => exact .inr (.inr (.inr (.inr (.inl ⟨rd, _, _, ⟨a, b, .inl rfl⟩, rfl⟩))))
  | sub rd a b => exact .inr (.inr (.inr (.inr (.inl ⟨rd, _, _, ⟨a, b, .inr rfl⟩, rfl⟩))))
  | mullo rd a b => exact .inr (.inr (.inr (.inr (.inr ⟨rd, _, by simp [Instr.usedRegs], rfl⟩))))
  | mulhi rd a b => exact .inr (.inr (.inr (.inr (.inr ⟨rd, _, by simp [Instr.usedRegs], rfl⟩))))
  | montmul rd a b n =>
    simp only [ruleOf]
    split
    · exact .inl ⟨_, by decide, by decide, rfl⟩
    · split
      · exact .inl ⟨_, by decide, by decide, rfl⟩
      · exact .inr (.inr (.inr (.inr (.inr ⟨rd, _, by simp [Instr.usedRegs], rfl⟩))))
  | modexp rd a b n =>
    simp only [ruleOf]
    split
    · exact .inl ⟨_, by decide, by decide, rfl⟩
    · exact .inr (.inr (.inr (.inr (.inr ⟨rd, _, by simp [Instr.usedRegs], rfl⟩))))
  | modexpc rd a b n =>
    simp only [ruleOf]
    split
    · exact .inl ⟨_, by decide, by decide, rfl⟩
    · exact .inr (.inr (.inr (.inr (.inr ⟨rd, _, by simp [Instr.usedRegs], rfl⟩))))

end Sys2Proof.Machine
end

