-- ==== Sys2Proof/Laws/Run.lean ====
section
/-! SUPPORT. Everything an engine step and a machine step can do, said once, and how a run peels off its first step. -/

namespace Sys2Proof.Machine

/-- A run of `k + 1` steps is its first step and then a run of `k`. -/
theorem run_succ (M : Host.Core) {s t : M.State} (k : Nat) (h : M.step s = .next t) :
    M.run (k + 1) s = M.run k t := by rw [Host.Core.run, h]

/-- The same for this machine, whose step is `step`. -/
theorem core_run_succ {s t : State} (k : Nat) (h : step s = .next t) :
    Host.Core.run Sys2Proof.core (k + 1) s = Host.Core.run Sys2Proof.core k t := run_succ Sys2Proof.core k h

/-- Everything the engine's turn can do: nothing when no command is in flight; else the word's own error, REG_RANGE, nothing
computed from unwritten sources, or the command's rule. -/
theorem engineStep_cases {s t : State} (h : engineStep s = .next t) :
    (s.inflight = none ∧ t = s) ∨ ∃ l, s.inflight = some l ∧
      ((∃ e, decode l.cmd = .error e ∧ t = s.raise e) ∨ ∃ i, decode l.cmd = .ok i ∧
        ((¬ i.wf s.par.nreg ∧ t = s.raise .regRange) ∨
          (i.wf s.par.nreg ∧ (¬ ∀ r ∈ i.sources, s.writtenB r = true) ∧ t = s.leaveUncomputed i) ∨
          (i.wf s.par.nreg ∧ (∀ r ∈ i.sources, s.writtenB r = true) ∧ t = ruleOf i s))) := by
  unfold engineStep at h
  cases hl : s.inflight with
  | none => rw [hl] at h; dsimp at h; cases h; exact .inl ⟨rfl, rfl⟩
  | some l =>
    rw [hl] at h; dsimp only at h
    refine .inr ⟨l, rfl, ?_⟩
    cases hd : decode l.cmd with
    | error e => rw [hd] at h; dsimp at h; cases h; exact .inl ⟨e, rfl, rfl⟩
    | ok i =>
      rw [hd] at h; dsimp only at h
      refine .inr ⟨i, rfl, ?_⟩
      by_cases hw : i.wf s.par.nreg
      · by_cases hs : ∀ r ∈ i.sources, s.writtenB r = true
        · rw [exec_of_wf hw hs] at h; cases h; exact .inr (.inr ⟨hw, hs, rfl⟩)
        · rw [exec_of_unwritten hw hs] at h; cases h; exact .inr (.inl ⟨hw, hs, rfl⟩)
      · rw [exec_of_not_wf hw] at h; cases h; exact .inl ⟨hw, rfl⟩

/-- Everything a step can be: the engine's turn, one host transaction, or a reset, each on the schedule's tail. -/
theorem step_cases {s t : State} (h : step s = .next t) :
    (engineNext s ∧ engineStep { s with schedule := s.schedule.tail } = .next t) ∨
    (∃ txn, hostNext txn s ∧ t = hostStep txn { s with schedule := s.schedule.tail }) ∨
    (∃ p rest, s.schedule = .reset p :: rest ∧ t = resetStep p { s with schedule := s.schedule.tail }) := by
  unfold step at h
  split at h <;> rename_i hs
  · refine .inl ⟨.inl hs, ?_⟩
    rw [hs]
    have e : ({ s with schedule := [] } : State) = s := by cases s; simp_all
    simpa [e] using h
  · cases h; exact .inr (.inl ⟨_, ⟨_, hs⟩, by rw [hs]; rfl⟩)
  · exact .inl ⟨.inr ⟨_, hs⟩, by rw [hs]; exact h⟩
  · cases h; exact .inr (.inr ⟨_, _, hs, by rw [hs]; rfl⟩)

/-- A command's rule keeps what is the host's own, and ends the command. -/
theorem ruleOf_kept (i : Instr) (s : State) : hostSideKept s (ruleOf i s) ∧ ended (ruleOf i s) := by
  rcases ruleOf_cases i s with ⟨_, -, -, k⟩ | ⟨_, -, k⟩ | ⟨_, _, -, -, k⟩ | ⟨_, _, _, -, -, k⟩ | ⟨_, _, _, -, k⟩ |
    ⟨_, _, -, k⟩ <;> rw [k] <;> exact ⟨⟨rfl, rfl, rfl, rfl, rfl, rfl⟩, rfl, rfl, rfl⟩

/-- A host transaction touches neither the registers nor RESLEN, C, the fault mark, the parameters or the schedule. -/
theorem hostStep_kept (t : Txn) (s : State) :
    (hostStep t s).regs = s.regs ∧ (hostStep t s).reslen = s.reslen ∧ (hostStep t s).c = s.c ∧
      (hostStep t s).fault = s.fault ∧ (hostStep t s).par = s.par ∧ (hostStep t s).schedule = s.schedule := by
  rcases hostStep_cases t s with ⟨_, _, _, _, -, k⟩ | ⟨-, -, -, k⟩ | ⟨_, -, -, k⟩ | ⟨_, -, k⟩ | ⟨_, -, -, k⟩ | ⟨_, -, k⟩ |
    ⟨_, _, _, -, -, -, -, k⟩ | ⟨-, -, -, k⟩ <;> rw [k] <;> exact ⟨rfl, rfl, rfl, rfl, rfl, rfl⟩

end Sys2Proof.Machine
end

