-- ==== Sys2Proof/Laws/Host.lean ====
section
/-! SUPPORT. Everything a turn of a host program can do, said once. -/

namespace Sys2Proof.Machine

/-- Bit 0 of STATUS is BUSY (R26). -/
theorem status_busy (s : State) : (hostRead offStatus .four s).getLsbD 0 = s.busy := by
  show s.statusWord.getLsbD 0 = s.busy
  rw [State.statusWord, BitVec.getLsbD_append]
  simp

/-- A step whose event is a host transaction is that transaction. -/
@[simp] theorem stepWith_host (t : Txn) (s : State) : stepWith (.host t) s = .next (hostStep t s) := rfl

/-- A step whose event is the engine's turn is the engine's step. -/
@[simp] theorem stepWith_engine (s : State) : stepWith .engine s = engineStep s := rfl

/-- A read of STATUS is observed and changes nothing else. -/
theorem hostStep_poll (s : State) :
    hostStep (.read offStatus .four) s = { s with reads := hostRead offStatus .four s :: s.reads } := rfl

/-- A host turn in a `wait` on a busy block: STATUS is read, and the loop goes on. -/
theorem programTurn_wait_busy {s : State} (p : List HostOp) (h : s.busy = true) :
    programTurn .host (.wait :: p) s = .next (.wait :: p, hostStep (.read offStatus .four) s) := by
  simp only [programTurn, restOf, HostOp.over, HostOp.toTxn, status_busy, h, stepWith_host, beside, Bool.not_true,
    Bool.false_eq_true, if_false]

/-- A host turn in a `wait` on an idle block: STATUS is read once, and the loop is over. -/
theorem programTurn_wait_idle {s : State} (p : List HostOp) (h : s.busy = false) :
    programTurn .host (.wait :: p) s = .next (p, hostStep (.read offStatus .four) s) := by
  simp only [programTurn, restOf, HostOp.over, HostOp.toTxn, status_busy, h, stepWith_host, beside, Bool.not_false, if_true]

/-- A host turn with a single transaction next. -/
theorem programTurn_txn (t : Txn) (p : List HostOp) (s : State) :
    programTurn .host (.txn t :: p) s = .next (p, hostStep t s) := rfl

/-- An engine turn leaves the host's program alone. -/
theorem programTurn_engine {s t : State} (p : List HostOp) (h : engineStep s = .next t) :
    programTurn .engine p s = .next (p, t) := by
  simp [programTurn, h, beside]

/-- A run goes on from where its first turn leads. -/
theorem runProgram_cons {t : Turn} {p q : List HostOp} {s u : State} (ts : List Turn)
    (h : programTurn t p s = .next (q, u)) : runProgram (t :: ts) p s = runProgram ts q u := by
  rw [runProgram, h]

/-- A run over turns in two parts is the second part from where the first leads. -/
theorem runProgram_append {p q : List HostOp} {s u : State} (ts us : List Turn)
    (h : runProgram ts p s = .next (q, u)) : runProgram (ts ++ us) p s = runProgram us q u := by
  induction ts generalizing p s with
  | nil => cases h; rfl
  | cons t ts ih =>
    rw [List.cons_append, runProgram]
    rw [runProgram] at h
    cases ht : programTurn t p s with
    | next r => rw [ht] at h; exact ih h
    | fault f => rw [ht] at h; cases h
    | refused r => rw [ht] at h; cases h

end Sys2Proof.Machine
end

