-- ==== Sys2Proof/Laws/Numbers.lean ====
section
/-! SUPPORT. `bitlen` and `minlen` say what R11 says of them. -/

namespace Sys2Proof.Machine

/-- `bitlen v <= k` exactly when `v < 2^k`. -/
theorem bitlen_le_iff {v k : Nat} : bitlen v ≤ k ↔ v < 2 ^ k := by
  unfold bitlen
  split
  · simp_all
  · rename_i h
    rw [Nat.succ_le_iff, Nat.log2_lt h]

/-- `minlen v <= k` exactly when `v` fits `k` bytes. -/
theorem minlen_le_iff {v k : Nat} : minlen v ≤ k ↔ v < 256 ^ k := by
  have : (256 : Nat) ^ k = 2 ^ (8 * k) := by rw [pow_mul]; norm_num
  rw [this, ← bitlen_le_iff]
  unfold minlen
  omega

/-- A value fits its own minimal bytes. -/
theorem lt_pow_minlen (v : Nat) : v < 256 ^ minlen v := minlen_le_iff.mp le_rfl

/-- The shortest byte string: `k` bytes hold `v` and `k - 1` do not. -/
theorem minlen_eq {v k : Nat} (h : v < 256 ^ k) (hk : k = 0 ∨ 256 ^ (k - 1) ≤ v) : minlen v = k := by
  have h1 := minlen_le_iff.mpr h
  rcases hk with rfl | hk
  · omega
  · have : ¬ minlen v ≤ k - 1 := fun hle => absurd (minlen_le_iff.mp hle) (by omega)
    omega

/-- `bitAt` of a halved number is the next bit. -/
theorem bitAt_div_two (v i : Nat) : bitAt (v / 2) i = bitAt v (i + 1) := by
  simp [bitAt, Nat.div_div_eq_div_mul, pow_succ']

end Sys2Proof.Machine
end

