-- ==== Sys2Proof/Laws/PerInstr.lean ====
section
/-! SUPPORT. Statements about every command as syntax, one lemma per constructor (LAWS.json). -/

namespace Sys2Proof.Laws

/-- The fields of an assembled word are the fields it was assembled from (R91). -/
theorem packWord_fields (op : BitVec 6) (rd rs1 rs2 rs3 : RegIdx) :
    opField (packWord op rd rs1 rs2 rs3) = op ∧ rdField (packWord op rd rs1 rs2 rs3) = rd ∧
    rs1Field (packWord op rd rs1 rs2 rs3) = rs1 ∧ rs2Field (packWord op rd rs1 rs2 rs3) = rs2 ∧
    rs3Field (packWord op rd rs1 rs2 rs3) = rs3 ∧ res0Field (packWord op rd rs1 rs2 rs3) = 0#2 ∧
    res1Field (packWord op rd rs1 rs2 rs3) = 0#8 := by
  refine ⟨?_, ?_, ?_, ?_, ?_, ?_, ?_⟩ <;>
  · apply BitVec.eq_of_getLsbD_eq
    intro i hi
    simp only [opField, rdField, rs1Field, rs2Field, rs3Field, res0Field, res1Field, packWord,
      BitVec.getLsbD_extractLsb', BitVec.getLsbD_append]
    interval_cases i <;> simp

/-- The word of R91 as a number: `op + rd * 2^8 + rs1 * 2^12 + rs2 * 2^16 + rs3 * 2^20`. -/
theorem packWord_toNat (op : BitVec 6) (rd rs1 rs2 rs3 : RegIdx) :
    (packWord op rd rs1 rs2 rs3).toNat =
      op.toNat + rd.toNat * 2 ^ 8 + rs1.toNat * 2 ^ 12 + rs2.toNat * 2 ^ 16 + rs3.toNat * 2 ^ 20 := by
  have := op.isLt
  have := rd.isLt
  have := rs1.isLt
  have := rs2.isLt
  have := rs3.isLt
  simp only [packWord, BitVec.toNat_append]
  repeat rw [← Nat.shiftLeft_add_eq_or_of_lt (by simp; try omega)]
  simp [Nat.shiftLeft_eq]
  omega

/-- A word whose reserved fields are 0 is assembled from its own fields (R91). -/
theorem packWord_of_fields (w : Word) (h0 : res0Field w = 0#2) (h1 : res1Field w = 0#8) :
    packWord (opField w) (rdField w) (rs1Field w) (rs2Field w) (rs3Field w) = w := by
  apply BitVec.eq_of_toNat_eq
  have e0 := congrArg BitVec.toNat h0
  have e1 := congrArg BitVec.toNat h1
  rw [packWord_toNat]
  simp only [res0Field, res1Field, opField, rdField, rs1Field, rs2Field, rs3Field, BitVec.extractLsb'_toNat,
    Nat.shiftRight_eq_div_pow, BitVec.toNat_ofNat] at *
  have := w.isLt
  omega

/-- The only error of decoding is ILLEGAL_CMD (R96). -/
theorem decode_error {w : Word} {e : ErrorCode} (h : decode w = .error e) : e = .illegalCmd := by
  have unused : ∀ fs i, whenUnusedZero fs i = .error e → e = .illegalCmd := by
    intro fs i k
    unfold whenUnusedZero at k
    split at k <;> cases k
    rfl
  unfold decode at h
  repeat' split at h
  all_goals first | exact unused _ _ h | (cases h; rfl) | cases h

/-- The word of a command has the opcode of its row in bits 5:0 and both reserved fields 0 (R91, R94). -/
def EncodedFields.Statement (i : Instr) : Prop :=
  opField (encode i) = i.matchMask.1.extractLsb' 0 6 ∧ res0Field (encode i) = 0#2 ∧ res1Field (encode i) = 0#8

theorem encodedFields_of_pack {i : Instr} {op : BitVec 6} {rd rs1 rs2 rs3 : RegIdx}
    (h : encode i = packWord op rd rs1 rs2 rs3) (hop : i.matchMask.1.extractLsb' 0 6 = op) :
    EncodedFields.Statement i := by
  obtain ⟨h1, -, -, -, -, h2, h3⟩ := packWord_fields op rd rs1 rs2 rs3
  exact ⟨by rw [h, hop, h1], by rw [h, h2], by rw [h, h3]⟩

theorem EncodedFields.b2i (rd : RegIdx) : EncodedFields.Statement (.b2i rd) :=
  encodedFields_of_pack rfl rfl
theorem EncodedFields.i2bfix (rs1 : RegIdx) : EncodedFields.Statement (.i2bfix rs1) :=
  encodedFields_of_pack rfl rfl
theorem EncodedFields.i2bmin (rs1 : RegIdx) : EncodedFields.Statement (.i2bmin rs1) :=
  encodedFields_of_pack rfl rfl
theorem EncodedFields.add (rd rs1 rs2 : RegIdx) : EncodedFields.Statement (.add rd rs1 rs2) :=
  encodedFields_of_pack rfl rfl
theorem EncodedFields.sub (rd rs1 rs2 : RegIdx) : EncodedFields.Statement (.sub rd rs1 rs2) :=
  encodedFields_of_pack rfl rfl
theorem EncodedFields.mullo (rd rs1 rs2 : RegIdx) : EncodedFields.Statement (.mullo rd rs1 rs2) :=
  encodedFields_of_pack rfl rfl
theorem EncodedFields.mulhi (rd rs1 rs2 : RegIdx) : EncodedFields.Statement (.mulhi rd rs1 rs2) :=
  encodedFields_of_pack rfl rfl
theorem EncodedFields.montmul (rd rs1 rs2 rs3 : RegIdx) : EncodedFields.Statement (.montmul rd rs1 rs2 rs3) :=
  encodedFields_of_pack rfl rfl
theorem EncodedFields.modexp (rd rs1 rs2 rs3 : RegIdx) : EncodedFields.Statement (.modexp rd rs1 rs2 rs3) :=
  encodedFields_of_pack rfl rfl
theorem EncodedFields.modexpc (rd rs1 rs2 rs3 : RegIdx) : EncodedFields.Statement (.modexpc rd rs1 rs2 rs3) :=
  encodedFields_of_pack rfl rfl

end Sys2Proof.Laws
end

