-- ==== Sys2Proof/Tests/Slice0.lean ====
section
/-! SUPPORT. The model's own tests, with expected values from 30_encoding.md R102 and 95_test_vectors.md, the smoke tests of
WellFormed, and for every statement with hypotheses a witness that meets them. -/

namespace Sys2Proof.Tests

open Sys2Proof Sys2Proof.Machine

/-! ### Small states -/

/-- A small instance: `W = 32`, 8 registers, 32 buffer bytes. -/
def tiny : Params := { w := 32, nreg := 8, bufBytes := 32 }

/-- An idle small instance with registers `vs`, all written, ARG = (address `a`, length `l`), and `bytes` stored from
buffer index `at0` on. -/
def idle (vs : List Nat) (a l : Nat := 0) (bytes : List Byte := []) (at0 : Nat := 0) : State :=
  { State.resetFor tiny with
    regs := vs.map (fun v => { val := v, written := true })
    arg := BitVec.ofNat 32 (l * 2 ^ 16 + a)
    buf := bytes.zipIdx.map (fun p => (at0 + p.2, p.1)) }

/-- The same instance with the command word `w` in flight. -/
def held (w : Word) (s : State) : State := s.accept w

/-- The state a step leads to. -/
def next (s : State) : State :=
  match step s with
  | .next t => t
  | _ => s

/-- The word `w` issued on `s` and completed by one step. -/
def ran (w : Word) (s : State) : State := next (s.issue w)

/-- Register values and STATUS, to compare with the vectors. -/
def seen (s : State) : List Nat × Word := (s.regs.map BReg.val, s.statusWord)

/-- The buffer bytes `a, ..., a+n-1`, RESLEN and STATUS. -/
def bytesSeen (s : State) (a n : Nat) : List (Option Byte) × BitVec 16 × Word :=
  ((List.range n).map (fun k => Memory.read s.buf (a + k)), s.reslen, s.statusWord)

/-! ### Decoding: R102 and 95_test_vectors.md section 2.1 -/

theorem test_decode_b2i : decode 0b00000000000000000000001100000001#32 = .ok (.b2i 3) := by decide
theorem test_decode_i2bfix : decode 0b00000000000000000101000000000010#32 = .ok (.i2bfix 5) := by decide
theorem test_decode_i2bmin : decode 0b00000000000000000101000000000011#32 = .ok (.i2bmin 5) := by decide
theorem test_decode_add : decode 0b00000000000000010000001000000100#32 = .ok (.add 2 0 1) := by decide
theorem test_decode_sub : decode 0b00000000000000010000001000000101#32 = .ok (.sub 2 0 1) := by decide
theorem test_decode_mullo : decode 0b00000000000000100001001100000110#32 = .ok (.mullo 3 1 2) := by decide
theorem test_decode_mulhi : decode 0b00000000000000100001010000000111#32 = .ok (.mulhi 4 1 2) := by decide
theorem test_decode_montmul : decode 0b00000000000100100000011000001000#32 = .ok (.montmul 6 0 2 1) := by decide
theorem test_decode_modexp : decode 0b00000000000100110100010100001001#32 = .ok (.modexp 5 4 3 1) := by decide
theorem test_decode_modexpc : decode 0b00000000000100100000010000001010#32 = .ok (.modexpc 4 0 2 1) := by decide

/-- Words of section 2.1 that are ILLEGAL_CMD: a reserved opcode, a reserved field, a field the form does not use. -/
theorem test_decode_illegal :
    [0x00000000#32, 0x0000000B#32, 0x0000003F#32, 0x00000041#32, 0x01000004#32, 0x00001001#32, 0x00000102#32,
      0x00100004#32].all (fun w => decide (decode w = .error .illegalCmd)) = true := by decide

/-- Section 2.1 with `NREG = 8`: REG_RANGE, and ILLEGAL_CMD before it. -/
theorem test_decode_regRange :
    decodeCommand 8 0x00000F04#32 = .error .regRange ∧ decodeCommand 8 0x00F00008#32 = .error .regRange ∧
    decodeCommand 8 0x00100F04#32 = .error .illegalCmd ∧ decodeCommand 16 0x000FFF04#32 = .ok (.add 15 15 15) := by
  decide

/-- The rows of the opcode map: no word meets two of them. -/
theorem test_rows_disjoint :
    ([Instr.b2i 0, .i2bfix 0, .i2bmin 0, .add 0 0 0, .sub 0 0 0, .mullo 0 0 0, .mulhi 0 0 0, .montmul 0 0 0 0,
      .modexp 0 0 0 0, .modexpc 0 0 0 0].map Instr.matchMask).Pairwise
      (fun p q => (p.1 ^^^ q.1) &&& (p.2 &&& q.2) ≠ 0#32) := by decide

/-- R100, R102: assembler syntax. -/
theorem test_asm : (Instr.modexp 5 4 3 1).asm = "modexp b5, b4, b3, b1" ∧ (Instr.b2i 3).asm = "b2i b3" := ⟨rfl, rfl⟩

/-! ### WellFormed: each check refuses an ill-formed term -/

theorem smoke_wf_rd : ¬ (Instr.b2i 8).wf 8 := by decide
theorem smoke_wf_rs1 : ¬ (Instr.i2bfix 8).wf 8 ∧ ¬ (Instr.i2bmin 8).wf 8 := by decide
theorem smoke_wf_three : ¬ (Instr.add 8 0 0).wf 8 ∧ ¬ (Instr.sub 0 8 0).wf 8 ∧ ¬ (Instr.mullo 0 0 8).wf 8 ∧
    ¬ (Instr.mulhi 8 8 8).wf 8 ∧ (Instr.mulhi 7 7 7).wf 8 := by decide
theorem smoke_wf_four : ¬ (Instr.montmul 0 0 0 8).wf 8 ∧ ¬ (Instr.modexp 0 0 8 0).wf 8 ∧ ¬ (Instr.modexpc 0 8 0 0).wf 8 ∧
    (Instr.modexpc 7 7 7 7).wf 8 := by decide
theorem smoke_wf_width : ¬ Params.wf { tiny with w := 33 } ∧ ¬ Params.wf { tiny with w := 0 } ∧
    ¬ Params.wf { tiny with w := 32800 } := by decide
theorem smoke_wf_nreg : ¬ Params.wf { tiny with nreg := 1 } ∧ ¬ Params.wf { tiny with nreg := 17 } := by decide
theorem smoke_wf_bufBytes : ¬ Params.wf { tiny with bufBytes := 0 } ∧ ¬ Params.wf { tiny with bufBytes := 4097 } ∧
    tiny.wf ∧ Params.default.wf := by decide

/-! ### Commands: 95_test_vectors.md sections 2.2 to 2.7, one step each -/

/-- Section 2.2: five bytes, the first a zero beyond WB. -/
theorem test_b2i_leading_zero :
    seen (ran 0x00000101#32 (idle [7, 9] 0 5 [0x00#8, 0xFF#8, 0xFF#8, 0xFF#8, 0xFF#8])) =
      ([7, 0xFFFFFFFF], 0x00000002#32) := by decide
/-- Section 2.2: ENCODE_OVERFLOW. -/
theorem test_b2i_overflow :
    seen (ran 0x00000101#32 (idle [7, 9] 0 5 [0xFF#8, 0xFF#8, 0xFF#8, 0xFF#8, 0x00#8])) =
      ([7, 9], 0x00000406#32) := by decide

/-- Section 2.3: 2790 in two bytes at 0x10 is 0A E6. -/
theorem test_i2bfix_two_bytes :
    bytesSeen (ran 0x00001002#32 (idle [7, 2790] 0x10 2)) 0x0F 4 =
      ([none, some 0x0A#8, some 0xE6#8, none], 2#16, 0x00000002#32) := by decide
/-- Section 2.3: INTEGER_TOO_LARGE leaves the buffer and RESLEN. -/
theorem test_i2bfix_too_large :
    bytesSeen (ran 0x00001002#32 (idle [7, 2790] 0x10 1)) 0x10 2 = ([none, none], 0#16, 0x00000506#32) := by decide

/-- Section 2.3: 0xABCDEF in three bytes, whatever LEN. -/
theorem test_i2bmin_odd :
    bytesSeen (ran 0x00001003#32 (idle [7, 0xABCDEF] 0 9)) 0 4 =
      ([some 0xAB#8, some 0xCD#8, some 0xEF#8, none], 3#16, 0x00000002#32) := by decide
/-- Section 2.3: 0 writes nothing at `A = BUFBYTES`. -/
theorem test_i2bmin_zero :
    bytesSeen (ran 0x00001003#32 (idle [7, 0] 32 0)) 31 2 = ([none, none], 0#16, 0x00000002#32) := by decide

/-- Section 2.4: carry out; the destination is also a source (R99). -/
theorem test_add_carry :
    seen (ran 0x00010004#32 (idle [0xFFFFFFFF, 1])) = ([0, 1], 0x00000012#32) := by decide
theorem test_add_no_carry :
    seen (ran 0x00010004#32 (idle [5, 7])) = ([12, 7], 0x00000002#32) := by decide

/-- Section 2.4: borrow. -/
theorem test_sub_borrow :
    seen (ran 0x00010005#32 (idle [5, 7])) = ([0xFFFFFFFE, 7], 0x00000012#32) := by decide
theorem test_sub_no_borrow :
    seen (ran 0x00010205#32 (idle [0xFFFFFFFF, 1, 0])) = ([0xFFFFFFFF, 1, 0xFFFFFFFE], 0x00000002#32) := by decide

/-- Section 2.5. -/
theorem test_mullo :
    seen (ran 0x00010206#32 (idle [0xFFFFFFFF, 0xFFFFFFFF, 9])) =
      ([0xFFFFFFFF, 0xFFFFFFFF, 1], 0x00000002#32) := by decide
theorem test_mulhi :
    seen (ran 0x00010207#32 (idle [0xFFFFFFFF, 0xFFFFFFFF, 9])) =
      ([0xFFFFFFFF, 0xFFFFFFFF, 0xFFFFFFFE], 0x00000002#32) := by decide

/-- Section 2.6, `W = 32`: `716 * 237 * Rinv mod 3233 = 2473`. -/
theorem test_montmul :
    seen (ran 0x00210308#32 (idle [716, 237, 3233, 9])) = ([716, 237, 3233, 2473], 0x00000002#32) := by decide +kernel
/-- Section 2.6: an even modulus is found before an operand that is not reduced. -/
theorem test_montmul_even :
    seen (ran 0x00210308#32 (idle [4000, 1, 10, 9])) = ([4000, 1, 10, 9], 0x00000806#32) := by decide

/-- Section 2.7, E1: decryption of 2790. -/
theorem test_modexp :
    seen (ran 0x00210309#32 (idle [2790, 413, 3233, 9])) = ([2790, 413, 3233, 65], 0x00000002#32) := by decide +kernel
/-- Section 2.7: `1 mod 1` is 0. -/
theorem test_modexp_one :
    seen (ran 0x00210309#32 (idle [5, 0, 1, 9])) = ([5, 0, 1, 0], 0x00000002#32) := by decide

/-- Section 2.7, E1: encryption of 65; E2: `m = n` is refused. -/
theorem test_modexpc :
    seen (ran 0x0021030A#32 (idle [65, 17, 3233, 9])) = ([65, 17, 3233, 2790], 0x00000002#32) := by decide +kernel
theorem test_modexpc_too_large :
    seen (ran 0x0021030A#32 (idle [3233, 17, 3233, 9])) = ([3233, 17, 3233, 9], 0x00000606#32) := by decide

/-- Section 2.1: an illegal word completes with STATUS 0x00000106, a register out of range with 0x00000206. -/
theorem test_illegal_completes :
    seen (ran 0x00000000#32 (idle [7])) = ([7], 0x00000106#32) ∧
    seen (ran 0x00000F04#32 (idle [7])) = ([7], 0x00000206#32) := by decide

/-- Section 2.2: B2I over a byte never written marks UNWRITTEN_READ and does not compute (R22). -/
theorem test_unwritten_byte :
    (ran 0x00000101#32 (idle [7, 9] 0 1)).fault = some (.unwrittenRead (.b2i 1)) ∧
    (ran 0x00000101#32 (idle [7, 9] 0 1)).regs = (idle [7, 9] 0 1).regs := by decide

/-- R22, R247: so does a command that reads a register never written, before its own checks (here MODULUS_ZERO). -/
theorem test_unwritten_register :
    (ran 0x00210309#32 (State.resetFor tiny)).fault = some (.unwrittenRead (.modexp 3 0 1 2)) ∧
    (ran 0x00210309#32 (State.resetFor tiny)).err = false ∧
    (ran 0x00210309#32 (State.resetFor tiny)).regs = (State.resetFor tiny).regs := by decide

/-- The first step after reset runs the word that was placed for it. -/
theorem test_withFetchWord :
    seen (next ((State.resetFor tiny).withFetchWord 32 0x00000001)) = ([0, 0, 0, 0, 0, 0, 0, 0], 0x00000002#32) := by
  decide

/-! ### Bus: 95_test_vectors.md section 2.8 -/

theorem test_params :
    hostRead 0x0014#16 .four State.reset = 0x01100800#32 ∧ hostRead 0x0018#16 .four State.reset = 0x00000400#32 ∧
    hostRead 0x0014#16 .four (State.resetFor { w := 32, nreg := 4, bufBytes := 32 }) = 0x01040020#32 := by decide
theorem test_raz :
    hostRead 0x0000#16 .four State.reset = 0#32 ∧ hostRead 0x0004#16 .one State.reset = 0#32 ∧
    hostRead 0x0006#16 .four State.reset = 0#32 ∧ hostRead 0x001C#16 .four State.reset = 0#32 ∧
    hostRead 0x1000#16 .four State.reset = 0#32 ∧ hostRead 0x2000#16 .four State.reset = 0#32 := by decide
theorem test_arg_write :
    hostRead 0x0008#16 .four (hostWrite 0x0008#16 .four 0x00020010#32 State.reset) = 0x00020010#32 := by decide
theorem test_buf_write :
    hostRead 0x1000#16 .one (hostWrite 0x1000#16 .one 0x1AB#32 (idle [])) = 0x000000AB#32 ∧
    hostWrite 0x1020#16 .one 0x55#32 (idle []) = idle [] := by decide
theorem test_irq :
    (hostWrite 0x0010#16 .four 1#32 { idle [] with done := true }).irq = true ∧
    (hostWrite 0x0004#16 .four 2#32 (hostWrite 0x0010#16 .four 1#32 { idle [] with done := true })).irq = false := by
  decide
theorem test_status_write :
    (hostWrite 0x0004#16 .four 0x1F#32 { held 1#32 (idle []) with ovr := true, c := true }).statusWord =
      0x00000011#32 := by decide
theorem test_overrun :
    (hostWrite 0x0000#16 .four 1#32 (held 1#32 (idle []))).statusWord = 0x00000009#32 := by decide

/-- R101: the expansions of the host pseudo-instructions. -/
theorem test_pseudo :
    evSetarg 0x10 2 = [.txn (.write 0x0008#16 .four 0x00020010#32)] ∧
    evWbuf 4 [0xAB#32, 0x1CD#32] = [.txn (.write 0x1004#16 .one 0xAB#32), .txn (.write 0x1005#16 .one 0x1CD#32)] ∧
    evRbuf 31 1 = [.txn (.read 0x101F#16 .one)] ∧
    evZero 3 = [.txn (.write 0x0008#16 .four 0#32), .txn (.write 0x0000#16 .four 0x00000301#32), .wait] := by
  decide

/-- What is left of a host program, and a view of the block. -/
def left {α : Type} (view : State → α) : Host.Outcome (List HostOp × State) Fault Refusal → Option (List HostOp × α)
  | .next (p, s) => some (p, view s)
  | _ => none

/-- R101: `wait` on an idle block makes one read; on a busy one it goes on until the engine has stepped. Values read, newest
first. -/
theorem test_wait :
    left State.reads (runProgram [.host, .host, .host] evWait (idle [7])) = some ([], [0#32]) ∧
    left State.reads (runProgram [.host, .host] evWait (held 0x00000001#32 (idle [7]))) = some (evWait, [1#32, 1#32]) ∧
    left State.reads (runProgram [.host, .engine, .host] evWait (held 0x00000001#32 (idle [7]))) = some ([], [2#32, 1#32]) := by
  decide

/-- R101: `zero b1` leaves 0 in B1. -/
theorem test_zero :
    left seen (runProgram [.host, .host, .engine, .host] (evZero 1) (idle [7, 9])) = some ([], ([7, 0], 0x00000002#32)) := by
  decide

/-! ### Witnesses: for each statement with hypotheses, a state and operands that meet them together -/

/-- A full small instance: registers 0 to 7 as given, four bytes stored from index 28 (the end of the buffer). -/
def full (r0 r1 r2 r3 : Nat) (a l : Nat := 0) (bytes : List Byte := []) (at0 : Nat := 0) : State :=
  idle [r0, r1, r2, r3, 0, 0, 0, 0] a l bytes at0

theorem witness_LegalWordIsTheWordOfItsCommand : decode 0x00000F01#32 = .ok (.b2i 15) := by decide

/-- Each way for a word to be illegal, and an illegal word in flight. -/
theorem witness_IllegalWordCompletesWithIllegalCmd :
    bitsOf 0x0000000B#32 5 0 = 0x0B ∧ bitsOf 0x00000041#32 7 6 = 1 ∧ bitsOf 0x01000004#32 31 24 = 1 ∧
    (bitsOf 0x00F00001#32 5 0 = 1 ∧ bitsOf 0x00F00001#32 23 20 = 15) ∧
    (bitsOf 0x00000102#32 5 0 = 2 ∧ bitsOf 0x00000102#32 11 8 = 1) ∧
    (bitsOf 0x00100007#32 5 0 = 7 ∧ bitsOf 0x00100007#32 23 20 = 1) ∧
    decode 0#32 = .error .illegalCmd ∧
    (held 0#32 (full 0 0 0 0)).inflight = some { cmd := 0#32, arg := 0#32 } := by decide

/-- Register 8 of 8; and the last clause: with 16 registers the word for register 15 in flight, and its step. -/
theorem witness_RegisterOutOfRangeCompletesWithRegRange :
    (held 0x00000804#32 (full 0 0 0 0)).inflight = some { cmd := 0x00000804#32, arg := 0#32 } ∧
    decode 0x00000804#32 = .ok (.add 8 0 0) ∧ ¬ (Instr.add 8 0 0).wf (held 0x00000804#32 (full 0 0 0 0)).par.nreg ∧
    State.reset.par.nreg = 16 ∧ (held 0x00F00008#32 State.reset).errcode ≠ 2#4 ∧
    engineStep (held 0x00F00008#32 State.reset) = .next (next (held 0x00F00008#32 State.reset)) :=
  ⟨rfl, by decide, by decide, rfl, by decide, rfl⟩

/-- Every clause: an empty schedule; the engine first on it; a host transaction first; a reset first. -/
theorem witness_StepRunsTheDecodedCommand :
    (held 0x00000704#32 (full 0 0 0 0)).inflight = some { cmd := 0x00000704#32, arg := 0#32 } ∧
    decode 0x00000704#32 = .ok (.add 7 0 0) ∧ (held 0x00000704#32 (full 0 0 0 0)).schedule = [] ∧
    ({ held 0x00000704#32 (full 0 0 0 0) with schedule := [.engine] } : State).schedule = .engine :: [] ∧
    ({ full 0 0 0 0 with schedule := [.host (.write 0x0000#16 .four 1#32)] } : State).schedule =
      .host (.write 0x0000#16 .four 1#32) :: [] ∧
    ({ full 0 0 0 0 with schedule := [.reset none] } : State).schedule = .reset none :: [] := by decide

theorem witness_EngineStepFollowsTheDecodeRule :
    (held 0x00000804#32 (full 0 0 0 0)).inflight = some { cmd := 0x00000804#32, arg := 0#32 } := by decide

/-- Hypotheses of B2I for address `a`, length `n`, value `v`, on four bytes from index 28 on. -/
abbrev b2iHyps (s : State) (l : Latch) (rd : RegIdx) (a n v : Nat) : Prop :=
  s.Inv ∧ s.inflight = some l ∧ (Instr.b2i rd).wf s.par.nreg ∧ a = bitsOf l.arg 15 0 ∧ n = bitsOf l.arg 31 16 ∧
    v = ∑ k ∈ Finset.range n, ((Memory.read s.buf (a + k)).getD 0#8).toNat * 256 ^ (n - 1 - k)

/-- B2I, the clauses at their boundary: one byte beyond the buffer; the largest value that fits; the first that does not. -/
theorem witness_B2iReadsTheBigEndianValue_range :
    b2iHyps (held 0x701#32 (full 0 0 0 0 32 1)) { cmd := 0x701#32, arg := 0x00010020#32 } 7 32 1 0 ∧
    (held 0x701#32 (full 0 0 0 0 32 1)).par.bufBytes < 32 + 1 := by decide
theorem witness_B2iReadsTheBigEndianValue_fits :
    b2iHyps (held 0x701#32 (full 0 0 0 0 28 4 [0xFF#8, 0xFF#8, 0xFF#8, 0xFF#8] 28))
      { cmd := 0x701#32, arg := 0x0004001C#32 } 7 28 4 0xFFFFFFFF ∧
    (28 + 4 ≤ 32 ∧ (∀ k < 4, (held 0x701#32 (full 0 0 0 0 28 4 [0xFF#8, 0xFF#8, 0xFF#8, 0xFF#8] 28)).writtenBuf (28 + k) = true) ∧
      0xFFFFFFFF < 2 ^ 32) := by decide
theorem witness_B2iReadsTheBigEndianValue_overflows :
    b2iHyps (held 0x701#32 (full 0 0 0 0 27 5 [1#8, 0#8, 0#8, 0#8, 0#8] 27))
      { cmd := 0x701#32, arg := 0x0005001B#32 } 7 27 5 (2 ^ 32) ∧
    (27 + 5 ≤ 32 ∧ (∀ k < 5, (held 0x701#32 (full 0 0 0 0 27 5 [1#8, 0#8, 0#8, 0#8, 0#8] 27)).writtenBuf (27 + k) = true)) := by
  decide

theorem witness_B2iOverUnwrittenBytesIsMarked :
    (held 0x701#32 (full 0 0 0 0 31 1)).Inv ∧ bitsOf 0x0001001F#32 15 0 = 31 ∧ bitsOf 0x0001001F#32 31 16 = 1 ∧
    (held 0x701#32 (full 0 0 0 0 31 1)).inflight = some { cmd := 0x701#32, arg := 0x0001001F#32 } ∧
    (Instr.b2i 7).wf 8 ∧ 31 + 1 ≤ 32 ∧ (∃ k < 1, (held 0x701#32 (full 0 0 0 0 31 1)).writtenBuf (31 + k) = false) := by
  decide

/-- I2BFIX: beyond the buffer, the first value too large for its length, the largest that fits. -/
theorem witness_I2bfixWritesTheFixedWidthBytes_range :
    (held 0x2#32 (full 256 0 0 0 32 1)).Inv ∧ (Instr.i2bfix 0).wf 8 ∧
    sourcesWritten (.i2bfix 0) (held 0x2#32 (full 256 0 0 0 32 1)) ∧ bitsOf 0x00010020#32 15 0 = 32 ∧
    (held 0x2#32 (full 256 0 0 0 32 1)).inflight = some { cmd := 2#32, arg := 0x00010020#32 } ∧ 32 < 32 + 1 := by decide
theorem witness_I2bfixWritesTheFixedWidthBytes_value :
    (held 0x2#32 (full 256 0 0 0 31 1)).Inv ∧ (held 0x2#32 (full 255 0 0 0 31 1)).Inv ∧ 31 + 1 ≤ 32 ∧
    sourcesWritten (.i2bfix 0) (held 0x2#32 (full 256 0 0 0 31 1)) ∧
    sourcesWritten (.i2bfix 0) (held 0x2#32 (full 255 0 0 0 31 1)) ∧
    (held 0x2#32 (full 256 0 0 0 31 1)).inflight = some { cmd := 2#32, arg := 0x0001001F#32 } ∧
    256 ^ 1 ≤ (held 0x2#32 (full 256 0 0 0 31 1)).x 0 ∧ (held 0x2#32 (full 255 0 0 0 31 1)).x 0 < 256 ^ 1 := by decide

/-- I2BMIN: 256 needs two bytes, 0 none; at the end of the buffer and one beyond. -/
theorem witness_I2bminWritesTheMinimalBytes :
    (held 0x3#32 (full 256 0 0 0 30 0)).Inv ∧ (Instr.i2bmin 0).wf 8 ∧
    sourcesWritten (.i2bmin 0) (held 0x3#32 (full 256 0 0 0 30 0)) ∧
    (held 0x3#32 (full 256 0 0 0 30 0)).inflight = some { cmd := 3#32, arg := 30#32 } ∧ bitsOf 30#32 15 0 = 30 ∧
    (held 0x3#32 (full 256 0 0 0 30 0)).x 0 < 256 ^ 2 ∧ 256 ^ (2 - 1) ≤ (held 0x3#32 (full 256 0 0 0 30 0)).x 0 ∧
    30 + 2 ≤ 32 ∧ 32 < 31 + 2 ∧ (held 0x3#32 (full 0 0 0 0 32 0)).x 0 < 256 ^ 0 ∧ 32 + 0 ≤ 32 := by decide

/-- Two zero bytes and then AB CD. -/
def bytesState : State := full 0 0 0 0 28 4 [0x00#8, 0x00#8, 0xAB#8, 0xCD#8] 28
/-- Four zero bytes. -/
def zerosState : State := full 0 0 0 0 28 4 [0x00#8, 0x00#8, 0x00#8, 0x00#8] 28
/-- The last byte of the buffer, not zero. -/
def lastByteState : State := full 0 0 0 0 31 1 [0xCD#8] 31

theorem witness_RoundTripGivesTheBytesBack :
    bytesState.Inv ∧ bytesState.busy = false ∧ (7 : RegIdx).toNat < bytesState.par.nreg ∧
    28 = bitsOf bytesState.arg 15 0 ∧ 4 = bitsOf bytesState.arg 31 16 ∧ 28 + 4 ≤ bytesState.par.bufBytes ∧
    (∀ k < 4, bytesState.writtenBuf (28 + k) = true) ∧ bytesState.memRead 28 4 < 2 ^ bytesState.par.w := by decide

/-- Two of four bytes are zeros; all four are (`z = n`); none is, of one byte at the end of the buffer (`z = 0`). -/
theorem witness_MinimalBytesDropLeadingZeros :
    bytesState.Inv ∧ bytesState.busy = false ∧ 2 ≤ 4 ∧ (∀ k < 2, Memory.read bytesState.buf (28 + k) = some 0#8) ∧
    Memory.read bytesState.buf (28 + 2) ≠ some 0#8 ∧ bytesState.memRead 28 4 < 2 ^ bytesState.par.w := by decide
theorem witness_MinimalBytesDropLeadingZeros_all :
    zerosState.Inv ∧ zerosState.busy = false ∧ (7 : RegIdx).toNat < zerosState.par.nreg ∧ 28 = bitsOf zerosState.arg 15 0 ∧
    4 = bitsOf zerosState.arg 31 16 ∧ 28 + 4 ≤ zerosState.par.bufBytes ∧ (∀ k < 4, zerosState.writtenBuf (28 + k) = true) ∧
    zerosState.memRead 28 4 < 2 ^ zerosState.par.w ∧ (∀ k < 4, Memory.read zerosState.buf (28 + k) = some 0#8) := by decide
theorem witness_MinimalBytesDropLeadingZeros_none :
    lastByteState.Inv ∧ lastByteState.busy = false ∧ (7 : RegIdx).toNat < lastByteState.par.nreg ∧
    31 = bitsOf lastByteState.arg 15 0 ∧ 1 = bitsOf lastByteState.arg 31 16 ∧ 31 + 1 ≤ lastByteState.par.bufBytes ∧
    (∀ k < 1, lastByteState.writtenBuf (31 + k) = true) ∧ lastByteState.memRead 31 1 < 2 ^ lastByteState.par.w ∧
    Memory.read lastByteState.buf (31 + 0) ≠ some 0#8 := by decide

/-- ADD, SUB, MULLO, MULHI and the statements about them: the registers at the ends of their range. -/
theorem witness_AddGivesSumAndCarry :
    (held 0x10704#32 (full 0xFFFFFFFF 1 0 0)).Inv ∧ (Instr.add 7 0 1).wf 8 ∧
    sourcesWritten (.add 7 0 1) (held 0x10704#32 (full 0xFFFFFFFF 1 0 0)) := by decide
theorem witness_AddIsExactAndSymmetric :
    (held 0x10704#32 (full 0xFFFFFFFF 0xFFFFFFFF 0 0)).Inv ∧ (Instr.add 7 0 1).wf 8 ∧
    sourcesWritten (.add 7 0 1) (held 0x10704#32 (full 0xFFFFFFFF 0xFFFFFFFF 0 0)) := by decide
theorem witness_SubGivesDifferenceAndBorrow :
    (held 0x10705#32 (full 6 7 0 0)).Inv ∧ (Instr.sub 7 0 1).wf 8 ∧
    sourcesWritten (.sub 7 0 1) (held 0x10705#32 (full 6 7 0 0)) ∧
    (full 6 7 0 0).x 0 < (full 6 7 0 0).x 1 ∧ (full 7 7 0 0).x 1 ≤ (full 7 7 0 0).x 0 := by decide
theorem witness_SubIsExactWithItsBorrow :
    (held 0x10705#32 (full 0 0xFFFFFFFF 0 0)).Inv ∧ (Instr.sub 7 0 1).wf 8 ∧
    sourcesWritten (.sub 7 0 1) (held 0x10705#32 (full 0 0xFFFFFFFF 0 0)) := by decide
theorem witness_MulloGivesTheLowHalf :
    (held 0x10706#32 (full 0xFFFFFFFF 0xFFFFFFFF 0 0)).Inv ∧ (Instr.mullo 7 0 1).wf 8 ∧
    sourcesWritten (.mullo 7 0 1) (held 0x10706#32 (full 0xFFFFFFFF 0xFFFFFFFF 0 0)) := by decide
theorem witness_MulhiGivesTheHighHalf :
    (held 0x10707#32 (full 0xFFFFFFFF 0xFFFFFFFF 0 0)).Inv ∧ (Instr.mulhi 7 0 1).wf 8 ∧
    sourcesWritten (.mulhi 7 0 1) (held 0x10707#32 (full 0xFFFFFFFF 0xFFFFFFFF 0 0)) := by decide
theorem witness_ProductHalvesAreExact :
    (held 0x10706#32 (full 0xFFFF 0xFFFF 0 0)).Inv ∧ (Instr.mullo 7 0 1).wf 8 ∧
    sourcesWritten (.mullo 7 0 1) (held 0x10706#32 (full 0xFFFF 0xFFFF 0 0)) ∧ (Instr.mulhi 7 0 1).wf 8 ∧
    (full 0xFFFF 0xFFFF 0 0).x 0 < 2 ^ (32 / 2) ∧ (full 0xFFFF 0xFFFF 0 0).x 1 < 2 ^ (32 / 2) := by decide

/-- R190: an odd modulus, the modulus 1, and an even one; `Rinv` of 3233 for `W = 32` is 1296 (section 2.6). -/
theorem witness_MontgomeryInverseOfTheRadix :
    1 ≤ 32 ∧ 3233 % 2 = 1 ∧ montRinv 32 3233 = 1296 ∧ montRinv 32 1 = 0 ∧ 10 % 2 = 0 ∧ 0 < 10 := by decide +kernel

/-- MONTMUL: an even modulus, an operand equal to the modulus, and both operands one below it. -/
theorem witness_MontmulGivesTheMontgomeryProduct :
    (held 0x210708#32 (full 3232 3232 3233 0)).Inv ∧ (Instr.montmul 7 0 1 2).wf 8 ∧
    sourcesWritten (.montmul 7 0 1 2) (held 0x210708#32 (full 3232 3232 3233 0)) ∧
    (full 0 0 0 0).x 2 % 2 = 0 ∧ (full 3233 0 3233 0).x 2 % 2 = 1 ∧ (full 3233 0 3233 0).x 2 ≤ (full 3233 0 3233 0).x 0 ∧
    (full 3232 3232 3233 0).x 0 < (full 3232 3232 3233 0).x 2 ∧
    (full 3232 3232 3233 0).x 1 < (full 3232 3232 3233 0).x 2 := by decide

/-- R193 at `n = 1`, where only 0 is below it, and at 3233. -/
theorem witness_MontgomeryDomainLaws : 1 % 2 = 1 ∧ 0 < 1 ∧ 3233 % 2 = 1 ∧ 3232 < 3233 := by decide

/-- R194 with `B0` to be zeroed, `B1 = 3233`, `B2 = 1` or 2. -/
theorem witness_HostObtainsTheRadixResidues :
    (full 9 3233 1 9).Inv ∧ (full 9 3233 1 9).busy = false ∧ (full 9 3233 1 9).arg = 0#32 ∧
    (∀ i ∈ [(3 : RegIdx), 0, 1, 2, 4], i.toNat < (full 9 3233 1 9).par.nreg) ∧ (3 : RegIdx) ≠ 1 ∧ (3 : RegIdx) ≠ 2 ∧
    (0 : RegIdx) ≠ 1 ∧ (0 : RegIdx) ≠ 2 ∧ 1 < (full 9 3233 1 9).x 1 ∧ (full 9 3233 1 9).x 2 = 1 ∧
    (full 9 3233 2 9).x 2 = 2 ∧ (full 9 3233 1 9).writtenB 1 = true ∧ (full 9 3233 1 9).writtenB 2 = true := by
  decide

theorem witness_ModexpIsThePowerModN : 1 ≤ 1 ∧ modexp 5 0 1 = 0 ∧ modexp 0 0 3233 = 1 := by decide

/-- MODEXP with modulus 0 and 1; MODEXPC with the plaintext equal to the modulus and one below it. -/
theorem witness_ModexpGivesThePower :
    (held 0x210709#32 (full 5 0 1 0)).Inv ∧ (Instr.modexp 7 0 1 2).wf 8 ∧
    sourcesWritten (.modexp 7 0 1 2) (held 0x210709#32 (full 5 0 1 0)) ∧ (full 5 0 0 0).x 2 = 0 ∧ 1 ≤ (full 5 0 1 0).x 2 := by
  decide
theorem witness_ModexpcChecksThePlaintext :
    (held 0x21070A#32 (full 3232 17 3233 0)).Inv ∧ (Instr.modexpc 7 0 1 2).wf 8 ∧
    sourcesWritten (.modexpc 7 0 1 2) (held 0x21070A#32 (full 3232 17 3233 0)) ∧
    (full 3233 17 3233 0).x 2 ≤ (full 3233 17 3233 0).x 0 ∧ (full 3232 17 3233 0).x 0 < (full 3232 17 3233 0).x 2 := by
  decide

/-- E1: p = 61, q = 53, e = 17, d = 413, m = 65. -/
theorem witness_RsaDecryptsWhatItEncrypts :
    (full 65 17 413 3233).Inv ∧ (full 65 17 413 3233).busy = false ∧
    (∀ i ∈ [(4 : RegIdx), 5, 0, 1, 2, 3], i.toNat < (full 65 17 413 3233).par.nreg) ∧ (4 : RegIdx) ≠ 2 ∧ (4 : RegIdx) ≠ 3 ∧
    Nat.Prime 61 ∧ Nat.Prime 53 ∧ 61 ≠ 53 ∧ 17 < Nat.lcm 60 52 ∧ Nat.Coprime 17 (Nat.lcm 60 52) ∧
    17 * 413 % Nat.lcm 60 52 = 1 % Nat.lcm 60 52 ∧ 65 < 61 * 53 ∧ (full 65 17 413 3233).x 3 = 61 * 53 ∧
    (∀ i ∈ [(0 : RegIdx), 1, 2, 3], (full 65 17 413 3233).writtenB i = true) := by
  refine ⟨by decide, by decide, by decide, by decide, by decide, by norm_num, by norm_num, by decide, by decide, by decide,
    by decide, by decide, by decide, by decide⟩

/-- A command in flight that fails: MODEXP with modulus 0. -/
theorem witness_FailedCommandHasNoEffectButItsStatus :
    (held 0x210709#32 (full 5 0 0 0)).err = false ∧
    engineStep (held 0x210709#32 (full 5 0 0 0)) = .next (next (held 0x210709#32 (full 5 0 0 0))) ∧
    (next (held 0x210709#32 (full 5 0 0 0))).err = true := ⟨by decide, rfl, by decide⟩

/-- C changes by an ADD, and by a reset. -/
theorem witness_CarryIsWrittenOnlyByAddAndSub :
    (held 0x10704#32 (full 0xFFFFFFFF 1 0 0)).Inv ∧
    step (held 0x10704#32 (full 0xFFFFFFFF 1 0 0)) = .next (next (held 0x10704#32 (full 0xFFFFFFFF 1 0 0))) ∧
    (next (held 0x10704#32 (full 0xFFFFFFFF 1 0 0))).c ≠ (held 0x10704#32 (full 0xFFFFFFFF 1 0 0)).c :=
  ⟨by decide, rfl, by decide⟩

/-- RESLEN changes by an I2BMIN. -/
theorem witness_ReslenIsWrittenOnlyByByteOutput :
    (held 0x3#32 (full 256 0 0 0 30 0)).Inv ∧
    step (held 0x3#32 (full 256 0 0 0 30 0)) = .next (next (held 0x3#32 (full 256 0 0 0 30 0))) ∧
    (next (held 0x3#32 (full 256 0 0 0 30 0))).reslen ≠ (held 0x3#32 (full 256 0 0 0 30 0)).reslen :=
  ⟨by decide, rfl, by decide⟩

/-- An ADD of registers never written, in a state without and with a mark. -/
theorem witness_FaultMarkIsKeptUntilReset :
    step (held 0x10704#32 (State.resetFor tiny)) = .next (next (held 0x10704#32 (State.resetFor tiny))) ∧
    ¬ resetNext (held 0x10704#32 (State.resetFor tiny)) ∧
    (next (held 0x10704#32 (State.resetFor tiny))).fault ≠ (held 0x10704#32 (State.resetFor tiny)).fault ∧
    ({ held 0x10704#32 (State.resetFor tiny) with fault := some (.unwrittenRead (.b2i 0)) } : State).fault =
      some (.unwrittenRead (.b2i 0)) := by
  refine ⟨rfl, ?_, by decide, rfl⟩
  rintro ⟨p, rest, h⟩
  exact absurd h (by simp [held, State.accept, State.resetFor])

/-- Two states that differ in the contents of a register never written; a step that leaves them unmarked, and one that
marks them. -/
def hidden (v : Nat) : State :=
  { full 1 2 0 0 with regs := [{ val := 1, written := true }, { val := 2, written := true }, { val := v, written := false }] }

theorem witness_UnwrittenContentsAreNotObservable :
    (held 0x10104#32 (hidden 5)).blankUnwritten = (held 0x10104#32 (hidden 6)).blankUnwritten ∧
    held 0x10104#32 (hidden 5) ≠ held 0x10104#32 (hidden 6) ∧
    step (held 0x10104#32 (hidden 5)) = .next (next (held 0x10104#32 (hidden 5))) ∧
    (next (held 0x10104#32 (hidden 5))).fault = none ∧
    (next (held 0x20104#32 (hidden 5))).fault = some (.unwrittenRead (.add 1 0 2)) :=
  ⟨by decide, by decide, rfl, by decide, by decide⟩

/-- Idle and busy. -/
theorem witness_CommandIsAcceptedAndCompletes :
    (full 0 0 0 0).busy = false ∧ (held 0#32 (full 0 0 0 0)).busy = true := by decide

/-- A state whose next event is this host transaction. -/
def about (t : Txn) (s : State) : State := { s with schedule := [.host t] }

/-- The overrun clause at both ends of the buffer window; OVR cleared by a STATUS write of bit 3. -/
theorem witness_OverrunIsDiscardedAndSticky :
    (held 0#32 (full 0 0 0 0)).busy = true ∧ 0x1000 ≤ (0x1000#16 : Offset).toNat ∧ 0x1000 ≤ (0x101F#16 : Offset).toNat ∧
    (0x101F#16 : Offset).toNat < 0x1000 + (held 0#32 (full 0 0 0 0)).par.bufBytes ∧
    (held 0#32 (full 0 0 0 0)).par.bufBytes ≤ 0x1000 ∧
    step (about (.write 0x0004#16 .four 8#32) { full 0 0 0 0 with ovr := true }) =
      .next (next (about (.write 0x0004#16 .four 8#32) { full 0 0 0 0 with ovr := true })) ∧
    (about (.write 0x0004#16 .four 8#32) { full 0 0 0 0 with ovr := true }).ovr = true ∧
    (next (about (.write 0x0004#16 .four 8#32) { full 0 0 0 0 with ovr := true })).ovr = false :=
  ⟨by decide, by decide, by decide, by decide, by decide, rfl, by decide, by decide⟩

/-- DONE acknowledged, and DONE cleared by an acceptance. -/
theorem witness_DoneIsClearedOnlyByAckOrAcceptance :
    (about (.write 0x0004#16 .four 2#32) { full 0 0 0 0 with done := true }).done = true ∧
    step (about (.write 0x0004#16 .four 2#32) { full 0 0 0 0 with done := true }) =
      .next (next (about (.write 0x0004#16 .four 2#32) { full 0 0 0 0 with done := true })) ∧
    (next (about (.write 0x0004#16 .four 2#32) { full 0 0 0 0 with done := true })).done = false ∧
    (next (about (.write 0x0000#16 .four 2#32) { full 0 0 0 0 with done := true })).done = false ∧
    (next (about (.write 0x0004#16 .four 8#32) { full 0 0 0 0 with done := true })).done = true :=
  ⟨by decide, rfl, by decide, by decide, by decide⟩

theorem witness_ArgReadsBackAsWritten :
    (full 0 0 0 0).busy = false ∧ (held 0#32 (full 0 0 0 0)).busy = true := by decide

/-- The parameters at both ends of their ranges. -/
theorem witness_ParamsReadTheInstanceAndNeverChange :
    (State.resetFor { w := 32768, nreg := 16, bufBytes := 4096 }).par.wf ∧
    (State.resetFor { w := 32, nreg := 2, bufBytes := 1 }).par.wf ∧
    step (State.resetFor tiny) = .next (State.resetFor tiny) := ⟨by decide, by decide, rfl⟩

/-- Transactions that reach nothing: a misaligned and a reserved register, a byte access to a register, the first offset
beyond the buffer, the reserved region. -/
theorem witness_UnmappedTransactionsAreIgnored :
    tiny.bufBytes ≤ 0x1000 ∧ ¬ ((0x0006#16 : Offset).toNat % 4 = 0) ∧ ¬ ((0x001C#16 : Offset).toNat ≤ 0x0018) ∧
    ¬ (0x1000 ≤ (0x0FFF#16 : Offset).toNat) ∧ ¬ ((0x1020#16 : Offset).toNat < 0x1000 + tiny.bufBytes) ∧
    ¬ ((0xFFFF#16 : Offset).toNat < 0x1000 + tiny.bufBytes) := by decide

theorem witness_BufferWriteStoresOneByte :
    31 < (full 0 0 0 0).par.bufBytes ∧ (full 0 0 0 0).par.bufBytes ≤ 0x1000 ∧ (full 0 0 0 0).busy = false ∧
    (held 0#32 (full 0 0 0 0)).busy = true := by decide

theorem witness_BufferReadReturnsTheStoredByte :
    31 < bytesState.par.bufBytes ∧ bytesState.par.bufBytes ≤ 0x1000 ∧ bytesState.busy = false ∧
    Memory.read bytesState.buf 31 = some 0xCD#8 := by decide

theorem witness_HostReadsNeitherRegistersNorBusyBuffer : (held 0#32 bytesState).busy = true := by decide

theorem witness_InputsAreFrozenWhileBusy : (held 0x701#32 bytesState).Inv ∧ (held 0x701#32 bytesState).busy = true := by
  decide

/-- A host write of one buffer byte is neither the engine's turn nor a reset. -/
theorem witness_OnlyTheEngineWritesResults :
    step (about (.write 0x1000#16 .one 5#32) (full 0 0 0 0)) =
      .next (next (about (.write 0x1000#16 .one 5#32) (full 0 0 0 0))) ∧
    ¬ engineNext (about (.write 0x1000#16 .one 5#32) (full 0 0 0 0)) ∧
    ¬ resetNext (about (.write 0x1000#16 .one 5#32) (full 0 0 0 0)) := by
  refine ⟨rfl, ?_, ?_⟩
  · rintro (h | ⟨rest, h⟩) <;> simp [about] at h
  · rintro ⟨p, rest, h⟩
    simp [about] at h

theorem witness_RaceOfArgWriteAndCompletion : (held 0x701#32 bytesState).Inv ∧ (held 0x701#32 bytesState).busy = true := by
  decide

/-- `irq` low and rising by a completion, high and falling by an acknowledgement. -/
theorem witness_IrqRisesAndFallsAsTheRuleSays :
    step { held 0#32 (full 0 0 0 0) with ie := true } = .next (next { held 0#32 (full 0 0 0 0) with ie := true }) ∧
    ({ held 0#32 (full 0 0 0 0) with ie := true } : State).irq = false ∧
    (next { held 0#32 (full 0 0 0 0) with ie := true }).irq = true ∧
    (about (.write 0x0004#16 .four 2#32) { full 0 0 0 0 with done := true, ie := true }).irq = true ∧
    (next (about (.write 0x0004#16 .four 2#32) { full 0 0 0 0 with done := true, ie := true })).irq = false :=
  ⟨rfl, by decide, by decide, by decide, by decide⟩

theorem witness_ResetLeavesTheStatedValues :
    State.reset = State.resetFor State.reset.par ∧ (resetStep none (held 0#32 (full 0 0 0 0))).par = tiny := ⟨rfl, rfl⟩

theorem witness_ResetMeetsTheInvariant : tiny.wf ∧ Params.default.wf := by decide

/-- A busy state that meets the invariant, and its step. -/
theorem witness_EveryStepKeepsTheInvariant :
    (held 0x701#32 bytesState).Inv ∧ step (held 0x701#32 bytesState) = .next (next (held 0x701#32 bytesState)) :=
  ⟨by decide, rfl⟩

theorem witness_EveryAcceptedCommandCompletes :
    ({ held 0x701#32 bytesState with schedule := [.host (.read 0x0004#16 .four)] } : State).Inv := by decide

/-- B1 is written and B2 is not. -/
theorem witness_UnwrittenSourcesAreNotComputed :
    (Instr.add 1 0 2).wf (held 0x20104#32 (hidden 5)).par.nreg ∧
    (∃ r ∈ (Instr.add 1 0 2).sources, (held 0x20104#32 (hidden 5)).writtenB r = false) := by decide

/-- The last clauses at their boundary: an offset below the window, and one whose value is not open. -/
theorem witness_ReadsHaveNoSideEffect :
    (0x0FFF#16 : Offset).toNat < 0x1000 ∧ (0x101F#16 : Offset).toNat < 0x1000 + bytesState.par.bufBytes ∧
    ¬ (bytesState.busy = true ∨ bytesState.writtenBuf ((0x101F#16 : Offset).toNat - 0x1000) = false) := by decide

/-- The bounds met exactly: the last data word, the last address of the bus. -/
theorem witness_PseudoInstructionsExpandAsTheTableSays :
    0xFFFF * 2 ^ 16 + 0xFFFF < 2 ^ 32 ∧ 0x1000 + 0xEFFE + [1#32, 0xFFFFFFFF#32].length ≤ 2 ^ 16 ∧
    [1#32, 0xFFFFFFFF#32][1]? = some 0xFFFFFFFF#32 ∧
    0x1000 + 0xEFFE + 2 ≤ 2 ^ 16 ∧ 1 < 2 := by decide

/-- Busy and idle. -/
theorem witness_WaitReadsStatusUntilBusyIsClear :
    bitsOf (hostRead 0x0004#16 .four (held 0#32 (full 0 0 0 0))) 0 0 = 1 ∧
    bitsOf (hostRead 0x0004#16 .four (full 0 0 0 0)) 0 0 = 0 := by decide

theorem witness_WaitLoopEnds : (held 0x701#32 bytesState).Inv := by decide

end Sys2Proof.Tests
end

section
/-! PROOFS. The statements about the control registers and flags (10_state.md): R26, R28, R30, R31, R33 to R37 and R42. -/

namespace Sys2Proof.Machine

/-! ### Fields of a word -/

/-- An appended word as a number: the high part shifted up, plus the low part. -/
theorem append_toNat {m n : Nat} (x : BitVec m) (y : BitVec n) : (x ++ y).toNat = x.toNat * 2 ^ n + y.toNat := by
  rw [BitVec.toNat_append, ← Nat.shiftLeft_add_eq_or_of_lt y.isLt, Nat.shiftLeft_eq]

/-- A bit of a bus word is the one-bit field of R11 at its place. -/
theorem getLsbD_eq_bitsOf (w : Word) (i : Nat) : w.getLsbD i = decide (bitsOf w i i = 1) := by
  rw [← BitVec.testBit_toNat, Nat.testBit_eq_decide_div_mod_eq]
  simp [bitsOf]

/-- An extracted field of a bus word is the field of R11. -/
theorem extractLsb'_toNat_eq_bitsOf (w : Word) (hi lo : Nat) :
    (w.extractLsb' lo (hi - lo + 1)).toNat = bitsOf w hi lo := by
  rw [BitVec.extractLsb'_toNat, Nat.shiftRight_eq_div_pow, bitsOf]

/-- STATUS as a number: its fields at their bits (R26). -/
theorem statusWord_toNat (s : State) :
    s.statusWord.toNat = s.busy.toNat + s.done.toNat * 2 ^ 1 + s.err.toNat * 2 ^ 2 + s.ovr.toNat * 2 ^ 3 +
      s.c.toNat * 2 ^ 4 + s.errcode.toNat * 2 ^ 8 := by
  simp only [State.statusWord, append_toNat, BitVec.toNat_ofBool, BitVec.toNat_ofNat]
  omega

/-- Bit 4 of STATUS is C (R26, R31). -/
theorem statusWord_c (s : State) : bitsOf s.statusWord 4 4 = s.c.toNat := by
  have hb := s.busy.toNat_le
  have hd := s.done.toNat_le
  have he := s.err.toNat_le
  have ho := s.ovr.toNat_le
  have hc := s.c.toNat_le
  rw [bitsOf, statusWord_toNat]
  omega

/-- RESLEN is read in bits 15:0, with 0 above (R36). -/
theorem reslenWord_eq (s : State) : s.reslenWord = s.reslen.setWidth 32 := by
  apply BitVec.eq_of_toNat_eq
  have h := s.reslen.isLt
  rw [State.reslenWord, append_toNat, BitVec.toNat_setWidth]
  simp only [BitVec.toNat_ofNat]
  omega

/-- CTRL as a number is IE (R37). -/
theorem ctrlWord_toNat (s : State) : s.ctrlWord.toNat = s.ie.toNat := by
  rw [State.ctrlWord, append_toNat, BitVec.toNat_ofBool, BitVec.toNat_ofNat, Nat.zero_mod, Nat.zero_mul, Nat.zero_add]

/-- PARAM0 as a number, the parameters legal: `W`, `NREG` and VERSION at their places (R34). -/
theorem param0_toNat {s : State} (h : s.par.wf) :
    s.param0.toNat = s.par.w + s.par.nreg * 2 ^ 16 + 0x01 * 2 ^ 24 := by
  obtain ⟨-, -, hw, -, hn, -, -⟩ := h
  simp only [State.param0, Config.version, append_toNat, BitVec.toNat_ofNat]
  omega

/-- PARAM1 as a number is BUFBYTES, the parameters legal (R35). -/
theorem param1_toNat {s : State} (h : s.par.wf) : s.param1.toNat = s.par.bufBytes := by
  obtain ⟨-, -, -, -, -, -, hb⟩ := h
  simp only [State.param1, append_toNat, BitVec.toNat_ofNat]
  omega

/-! ### The register map (R25): what a four-byte access does at each offset -/

theorem hostRead_status (s : State) : hostRead 0x0004#16 .four s = s.statusWord := rfl
theorem hostRead_arg (s : State) : hostRead 0x0008#16 .four s = s.arg := rfl
theorem hostRead_reslen (s : State) : hostRead 0x000C#16 .four s = s.reslenWord := rfl
theorem hostRead_ctrl (s : State) : hostRead 0x0010#16 .four s = s.ctrlWord := rfl
theorem hostRead_param0 (s : State) : hostRead 0x0014#16 .four s = s.param0 := rfl
theorem hostRead_param1 (s : State) : hostRead 0x0018#16 .four s = s.param1 := rfl

theorem hostWrite_cmd (s : State) (d : Word) : hostWrite 0x0000#16 .four d s = s.writeCmd d := rfl
theorem hostWrite_status (s : State) (d : Word) : hostWrite 0x0004#16 .four d s = s.writeStatus d := rfl
theorem hostWrite_arg (s : State) (d : Word) : hostWrite 0x0008#16 .four d s = s.writeArg d := rfl
theorem hostWrite_ctrl (s : State) (d : Word) : hostWrite 0x0010#16 .four d s = s.writeCtrl d := rfl

/-- RESLEN, PARAM0 and PARAM1 are read-only: a write of any of them is ignored (R34, R35, R36). -/
theorem hostWrite_readOnly (s : State) (d : Word) :
    hostWrite 0x000C#16 .four d s = s ∧ hostWrite 0x0014#16 .four d s = s ∧ hostWrite 0x0018#16 .four d s = s :=
  ⟨rfl, rfl, rfl⟩

theorem writeCmd_idle {s : State} (d : Word) (h : s.busy = false) : s.writeCmd d = s.accept d := by
  simp [State.writeCmd, h]

theorem writeCmd_busy {s : State} (d : Word) (h : s.busy = true) : s.writeCmd d = s.overrun := by
  simp [State.writeCmd, h]

theorem writeArg_idle {s : State} (d : Word) (h : s.busy = false) : s.writeArg d = { s with arg := d } := by
  simp [State.writeArg, h]

theorem writeArg_busy {s : State} (d : Word) (h : s.busy = true) : s.writeArg d = s.overrun := by
  simp [State.writeArg, h]

theorem writeBuf_busy {s : State} (a : Nat) (d : Word) (h : s.busy = true) : s.writeBuf a d = s.overrun := by
  simp [State.writeBuf, h]

/-- A one-byte write at an offset below the end of the buffer window is a write of its buffer byte (R65). -/
theorem hostWrite_window {s : State} {addr : Offset} (d : Word) (hlo : 0x1000 ≤ addr.toNat)
    (hhi : addr.toNat < 0x1000 + s.par.bufBytes) (hb : s.par.bufBytes ≤ 0x1000) :
    hostWrite addr .one d s = s.writeBuf (addr.toNat - 0x1000) d := by
  have hr : regionOf addr = .window (addr.toNat - 0x1000) := by
    rw [regionOf, if_neg (by omega), if_pos (by omega)]
  have ha : addr.toNat - 0x1000 < s.par.bufBytes := by omega
  simp only [hostWrite, hr, if_pos ha]

/-- An accepted command's address and length are the fields of the ARG at its acceptance (R33, R93). -/
theorem accept_arg_fields (s : State) (w : Word) :
    (s.accept w).argAddr = bitsOf s.arg 15 0 ∧ (s.accept w).argLen = bitsOf s.arg 31 16 :=
  ⟨extractLsb'_toNat_eq_bitsOf s.arg 15 0,
    extractLsb'_toNat_eq_bitsOf s.arg 31 16⟩

/-! ### Whose step is next -/

/-- The schedule names one transaction. -/
theorem hostNext_iff_eq {s : State} {txn : Txn} (h : hostNext txn s) (u : Txn) : hostNext u s ↔ txn = u := by
  obtain ⟨rest, hr⟩ := h
  constructor
  · rintro ⟨rest', hr'⟩
    rw [hr] at hr'
    cases hr'
    rfl
  · rintro rfl
    exact ⟨rest, hr⟩

theorem hostNext_not_resetNext {s : State} {txn : Txn} (h : hostNext txn s) : ¬ resetNext s := by
  obtain ⟨rest, hr⟩ := h
  rintro ⟨p, rest', hr'⟩
  rw [hr] at hr'
  cases hr'

theorem engineNext_not_resetNext {s : State} (h : engineNext s) : ¬ resetNext s := by
  rintro ⟨p, rest, hr⟩
  rcases h with h | ⟨rest', h⟩ <;> rw [h] at hr <;> cases hr

theorem engineNext_not_hostNext {s : State} (h : engineNext s) (txn : Txn) : ¬ hostNext txn s := by
  rintro ⟨rest, hr⟩
  rcases h with h | ⟨rest', h⟩ <;> rw [h] at hr <;> cases hr

/-! ### What the engine's turn keeps -/

/-- The engine's turn keeps what is the host's own, and either changes nothing or ends a command (R23, R290). -/
theorem engineStep_kept {s t : State} (h : engineStep s = .next t) : hostSideKept s t ∧ (t = s ∨ ended t) := by
  have same : ∀ u : State, hostSideKept u u := fun _ => ⟨rfl, rfl, rfl, rfl, rfl, rfl⟩
  rcases engineStep_cases h with ⟨-, rfl⟩ | ⟨_, -, ⟨e, -, rfl⟩ | ⟨i, -, ⟨-, rfl⟩ | ⟨-, -, rfl⟩ | ⟨-, -, rfl⟩⟩⟩
  · exact ⟨same _, .inl rfl⟩
  · exact ⟨same s, .inr ⟨rfl, rfl, rfl⟩⟩
  · exact ⟨same s, .inr ⟨rfl, rfl, rfl⟩⟩
  · exact ⟨same s, .inr ⟨rfl, rfl, rfl⟩⟩
  · obtain ⟨hk, he⟩ := ruleOf_kept i s
    exact ⟨hk, .inr he⟩

/-- The parameters are fixed (R7, R34, R35, R42). -/
theorem step_par {s t : State} (h : step s = .next t) : t.par = s.par := by
  rcases step_cases h with ⟨-, he⟩ | ⟨txn, -, rfl⟩ | ⟨p, rest, -, rfl⟩
  · obtain ⟨⟨hpar, -⟩, -⟩ := engineStep_kept he
    exact hpar
  · obtain ⟨-, -, -, -, hpar, -⟩ := hostStep_kept txn { s with schedule := s.schedule.tail }
    exact hpar
  · rfl

/-- A turn of the engine that writes C or RESLEN is the rule of the command in flight: an error and a command over unwritten
storage write neither. -/
theorem engineStep_result {s t : State} (h : engineStep s = .next t) (hne : t.c ≠ s.c ∨ t.reslen ≠ s.reslen) :
    ∃ l i, s.inflight = some l ∧ decode l.cmd = .ok i ∧ t = ruleOf i s := by
  have unchanged : ∀ u : State, u.c = s.c → u.reslen = s.reslen → ¬ (u.c ≠ s.c ∨ u.reslen ≠ s.reslen) := by
    rintro u hc hr (k | k)
    · exact k hc
    · exact k hr
  rcases engineStep_cases h with ⟨-, rfl⟩ | ⟨l, hl, ⟨e, -, rfl⟩ | ⟨i, hd, ⟨-, rfl⟩ | ⟨-, -, rfl⟩ | ⟨-, -, rfl⟩⟩⟩
  · exact absurd hne (unchanged _ rfl rfl)
  · exact absurd hne (unchanged _ rfl rfl)
  · exact absurd hne (unchanged _ rfl rfl)
  · exact absurd hne (unchanged _ rfl rfl)
  · exact ⟨l, i, hl, hd, rfl⟩

/-- Under the invariant a command in flight has ERR clear (R29). -/
theorem err_of_inflight {s : State} {l : Latch} (hinv : s.Inv) (hl : s.inflight = some l) : s.err = false := by
  obtain ⟨-, -, -, ⟨hlatch, -⟩, hbusy, -, -⟩ := hinv
  have hb : s.busy = true := by rw [← hlatch, hl]; rfl
  exact (hbusy hb).2

/-! ### STATUS.C -/

/-- Only the rule of an ADD or a SUB changes C (R31). -/
theorem add_or_sub_of_ruleOf_c_ne {i : Instr} {s : State} (h : (ruleOf i s).c ≠ s.c) :
    ∃ rd rs1 rs2, i = .add rd rs1 rs2 ∨ i = .sub rd rs1 rs2 := by
  rcases ruleOf_cases i s with ⟨_, -, -, k⟩ | ⟨_, -, k⟩ | ⟨_, _, -, -, k⟩ | ⟨_, _, _, -, -, k⟩ |
    ⟨rd, _, _, ⟨rs1, rs2, hi⟩, -⟩ | ⟨_, _, -, k⟩
  case inr.inr.inr.inr.inl => exact ⟨rd, rs1, rs2, hi⟩
  all_goals exact absurd (by rw [k]; rfl) h

/-- The carry of two values below `2^w` is their exact sum divided by `2^w` (R151). -/
theorem carryOut_toNat {w a b : Nat} (ha : a < 2 ^ w) (hb : b < 2 ^ w) :
    (carryOut w a b).toNat = (a + b) / 2 ^ w := by
  have hlt : (a + b) / 2 ^ w < 2 := (Nat.div_lt_iff_lt_mul (Nat.two_pow_pos w)).mpr (by omega)
  rcases Nat.le_one_iff_eq_zero_or_eq_one.mp (Nat.le_of_lt_succ hlt) with h | h
  · simp [carryOut, h]
  · simp [carryOut, h]

/-- A turn of the engine changes C only as the rule of a successful ADD or SUB (R31). -/
theorem engineStep_c_ne {s t : State} (hinv : s.Inv) (h : engineStep s = .next t) (hc : t.c ≠ s.c) :
    t.err = false ∧ ∃ l rd rs1 rs2, s.inflight = some l ∧
      ((decode l.cmd = .ok (.add rd rs1 rs2) ∧ t.c.toNat = (s.x rs1 + s.x rs2) / 2 ^ s.par.w) ∨
        (decode l.cmd = .ok (.sub rd rs1 rs2) ∧ (t.c = true ↔ s.x rs1 < s.x rs2))) := by
  obtain ⟨l, i, hl, hd, rfl⟩ := engineStep_result h (.inl hc)
  have herr : s.err = false := err_of_inflight hinv hl
  obtain ⟨-, ⟨-, hval⟩, -⟩ := hinv
  obtain ⟨rd, rs1, rs2, rfl | rfl⟩ := add_or_sub_of_ruleOf_c_ne hc
  · exact ⟨herr, l, rd, rs1, rs2, hl, .inl ⟨hd, carryOut_toNat (x_lt hval rs1) (x_lt hval rs2)⟩⟩
  · exact ⟨herr, l, rd, rs1, rs2, hl, .inr ⟨hd, by simp [ruleOf, borrowOut]⟩⟩

/-- Writing C after a choice is writing it in each branch. -/
theorem ite_setC (p : Prop) [Decidable p] (t u : State) (b : Bool) :
    (if p then t else u).setC b = if p then t.setC b else u.setC b := apply_ite (State.setC · b) p t u

theorem whenWritten_setC (s : State) (w : Bool) (i : Instr) (t : State) (b : Bool) :
    (s.whenWritten w i t).setC b = (s.setC b).whenWritten w i (t.setC b) := by
  cases w <;> rfl

/-- No command's rule reads C: with another C before it, it differs in C alone after it. ADD and SUB write C, every other
command leaves it (R31). -/
theorem ruleOf_setC (i : Instr) (s : State) (b : Bool) : ∃ b', ruleOf i (s.setC b) = (ruleOf i s).setC b' := by
  cases i with
  | add rd rs1 rs2 => exact ⟨carryOut s.par.w (s.x rs1) (s.x rs2), rfl⟩
  | sub rd rs1 rs2 => exact ⟨borrowOut (s.x rs1) (s.x rs2), rfl⟩
  | mullo rd rs1 rs2 => exact ⟨b, rfl⟩
  | mulhi rd rs1 rs2 => exact ⟨b, rfl⟩
  | b2i rd => exact ⟨b, by simp only [ruleOf, ite_setC, whenWritten_setC]; rfl⟩
  | i2bfix rs1 => exact ⟨b, by simp only [ruleOf, ite_setC]; rfl⟩
  | i2bmin rs1 => exact ⟨b, by simp only [ruleOf, ite_setC]; rfl⟩
  | montmul rd rs1 rs2 rs3 => exact ⟨b, by simp only [ruleOf, ite_setC]; rfl⟩
  | modexp rd rs1 rs2 rs3 => exact ⟨b, by simp only [ruleOf, ite_setC]; rfl⟩
  | modexpc rd rs1 rs2 rs3 => exact ⟨b, by simp only [ruleOf, ite_setC]; rfl⟩

/-- No command reads C: with another C before it, it differs in C alone after it (R31). -/
theorem exec_setC {i : Instr} {s t : State} (b : Bool) (h : exec i s = .next t) :
    ∃ b', exec i (s.setC b) = .next (t.setC b') := by
  by_cases hwf : i.wf s.par.nreg
  · by_cases hw : ∀ r ∈ i.sources, s.writtenB r = true
    · rw [exec_of_wf hwf hw] at h
      cases h
      obtain ⟨b', hb'⟩ := ruleOf_setC i s b
      exact ⟨b', (exec_of_wf (s := s.setC b) hwf hw).trans (congrArg _ hb')⟩
    · rw [exec_of_unwritten hwf hw] at h
      cases h
      exact ⟨b, exec_of_unwritten (s := s.setC b) hwf hw⟩
  · rw [exec_of_not_wf hwf] at h
    cases h
    exact ⟨b, exec_of_not_wf (s := s.setC b) hwf⟩

/-- Settles O31: by the cases of a step, C changes only by the rule of an ADD or a SUB in flight, or by reset. -/
theorem carryIsWrittenOnlyByAddAndSub : Obligations.CarryIsWrittenOnlyByAddAndSub := by
  refine ⟨fun s t hinv h hc => ?_, fun s t i b h => ?_, fun s => ?_⟩
  · rcases step_cases h with ⟨hn, he⟩ | ⟨txn, -, rfl⟩ | ⟨p, rest, hr, -⟩
    · exact .inr ⟨hn, engineStep_c_ne (s := { s with schedule := s.schedule.tail }) hinv he hc⟩
    · obtain ⟨-, -, hkept, -⟩ := hostStep_kept txn { s with schedule := s.schedule.tail }
      exact absurd hkept hc
    · exact .inl ⟨p, rest, hr⟩
  · obtain ⟨b', hu⟩ := exec_setC b h
    exact ⟨t.setC b', hu, rfl⟩
  · rw [hostRead_status, statusWord_c]

/-! ### RESLEN -/

/-- Only the rule of an I2BFIX or an I2BMIN changes RESLEN (R36). -/
theorem i2b_of_ruleOf_reslen_ne {i : Instr} {s : State} (h : (ruleOf i s).reslen ≠ s.reslen) :
    ∃ rs1, i = .i2bfix rs1 ∨ i = .i2bmin rs1 := by
  rcases ruleOf_cases i s with ⟨_, -, -, k⟩ | ⟨_, -, k⟩ | ⟨_, _, -, -, k⟩ | ⟨_, _, _, -, hi, -⟩ | ⟨_, _, _, -, k⟩ |
    ⟨_, _, -, k⟩
  case inr.inr.inr.inl => exact hi
  all_goals exact absurd (by rw [k]; rfl) h

/-- An I2BFIX that changes RESLEN has written ARGLAT.LEN bytes, without error (R125). -/
theorem ruleOf_i2bfix_of_reslen_ne {rs1 : RegIdx} {s : State}
    (h : (ruleOf (.i2bfix rs1) s).reslen ≠ s.reslen) :
    (ruleOf (.i2bfix rs1) s).err = s.err ∧ (ruleOf (.i2bfix rs1) s).reslen.toNat = s.argLen := by
  have hlt : s.argLen < 2 ^ 16 := (s.argLat.extractLsb' 16 16).isLt
  simp only [ruleOf] at h ⊢
  split at h
  · exact absurd rfl h
  · split at h
    · exact absurd rfl h
    · rw [if_neg ‹_›, if_neg ‹_›]
      exact ⟨rfl, Nat.mod_eq_of_lt hlt⟩

/-- An I2BMIN that changes RESLEN has written the minimal number of bytes, without error (R126). -/
theorem ruleOf_i2bmin_of_reslen_ne {rs1 : RegIdx} {s : State} (hpar : s.par.wf)
    (h : (ruleOf (.i2bmin rs1) s).reslen ≠ s.reslen) :
    (ruleOf (.i2bmin rs1) s).err = s.err ∧ (ruleOf (.i2bmin rs1) s).reslen.toNat = minlen (s.x rs1) := by
  obtain ⟨-, -, -, -, -, -, hb⟩ := hpar
  simp only [ruleOf] at h ⊢
  split at h
  · exact absurd rfl h
  · rename_i hfit
    rw [if_neg hfit]
    exact ⟨rfl, Nat.mod_eq_of_lt (by omega)⟩

/-- A turn of the engine changes RESLEN only as the rule of a successful I2BFIX or I2BMIN (R36). -/
theorem engineStep_reslen_ne {s t : State} (hinv : s.Inv) (h : engineStep s = .next t) (hr : t.reslen ≠ s.reslen) :
    t.err = false ∧ ∃ l rs1, s.inflight = some l ∧
      ((decode l.cmd = .ok (.i2bfix rs1) ∧ t.reslen.toNat = bitsOf l.arg 31 16) ∨
        (decode l.cmd = .ok (.i2bmin rs1) ∧ t.reslen.toNat = minlen (s.x rs1))) := by
  obtain ⟨l, i, hl, hd, rfl⟩ := engineStep_result h (.inr hr)
  have herr : s.err = false := err_of_inflight hinv hl
  obtain ⟨hpar, -⟩ := hinv
  obtain ⟨rs1, rfl | rfl⟩ := i2b_of_ruleOf_reslen_ne hr
  · obtain ⟨he, hlen⟩ := ruleOf_i2bfix_of_reslen_ne hr
    have harg : s.argLen = bitsOf l.arg 31 16 := by
      rw [State.argLen, State.argLat, hl]
      exact extractLsb'_toNat_eq_bitsOf l.arg 31 16
    exact ⟨he.trans herr, l, rs1, hl, .inl ⟨hd, hlen.trans harg⟩⟩
  · obtain ⟨he, hlen⟩ := ruleOf_i2bmin_of_reslen_ne hpar hr
    exact ⟨he.trans herr, l, rs1, hl, .inr ⟨hd, hlen⟩⟩

/-- Settles O32: by the cases of a step, RESLEN changes only by the rule of an I2BFIX or an I2BMIN in flight, or by reset. -/
theorem reslenIsWrittenOnlyByByteOutput : Obligations.ReslenIsWrittenOnlyByByteOutput := by
  refine ⟨fun s t hinv h hr => ?_, fun s d => ?_⟩
  · rcases step_cases h with ⟨hn, he⟩ | ⟨txn, -, rfl⟩ | ⟨p, rest, hrst, rfl⟩
    · exact .inr ⟨hn, engineStep_reslen_ne (s := { s with schedule := s.schedule.tail }) hinv he hr⟩
    · obtain ⟨-, hkept, -⟩ := hostStep_kept txn { s with schedule := s.schedule.tail }
      exact absurd hkept hr
    · exact .inl ⟨⟨p, rest, hrst⟩, rfl⟩
  · obtain ⟨hkept, -, -⟩ := hostWrite_readOnly s d
    exact ⟨by rw [hostRead_reslen, reslenWord_eq], hkept⟩

/-! ### STATUS.OVR -/

/-- A host transaction clears OVR exactly when it is a STATUS write with bit 3 set (R26, R30). -/
theorem hostStep_ovr_false_iff {s : State} (txn : Txn) (ho : s.ovr = true) :
    (hostStep txn s).ovr = false ↔ ∃ d : Word, d.getLsbD 3 = true ∧ txn = .write 0x0004#16 .four d := by
  constructor
  · intro h
    rcases hostStep_cases txn s with ⟨_, _, _, _, -, k⟩ | ⟨-, -, -, k⟩ | ⟨_, -, -, k⟩ | ⟨d, hd, k⟩ | ⟨_, -, -, k⟩ |
      ⟨_, -, k⟩ | ⟨_, _, _, -, -, -, -, k⟩ | ⟨-, -, -, k⟩
    case inr.inr.inr.inl =>
      exact ⟨d, by simpa [k, ho] using h, hd⟩
    all_goals simp [k, ho] at h
  · rintro ⟨d, hd, rfl⟩
    rw [hostStep, hostWrite_status, writeStatus_ovr, hd, Bool.not_true, Bool.and_false]

/-- Settles O36: a discarded write is `overrun`; OVR is then kept by the engine, and cleared by the host only in a STATUS
write. -/
theorem overrunIsDiscardedAndSticky : Obligations.OverrunIsDiscardedAndSticky := by
  constructor
  · intro s d hb
    rw [hostWrite_cmd, hostWrite_arg]
    refine ⟨writeCmd_busy d hb, writeArg_busy d hb, fun a hlo hhi hbuf => ?_⟩
    rw [hostWrite_window d hlo hhi hbuf]
    exact writeBuf_busy _ d hb
  · intro s t h ho
    rcases step_cases h with ⟨hn, he⟩ | ⟨txn, hn, rfl⟩ | ⟨p, rest, hr, rfl⟩
    · obtain ⟨⟨-, -, -, hovr, -⟩, -⟩ := engineStep_kept he
      have hovr : t.ovr = true := hovr.trans ho
      simp [hovr, engineNext_not_resetNext hn, engineNext_not_hostNext hn]
    · have := hostStep_ovr_false_iff (s := { s with schedule := s.schedule.tail }) txn ho
      simpa only [hostNext_not_resetNext hn, false_or, hostNext_iff_eq hn] using this
    · exact iff_of_true rfl (.inl ⟨p, rest, hr⟩)

/-! ### STATUS.DONE -/

/-- A host transaction clears DONE exactly when it is a STATUS write with bit 1 set or a CMD write to an idle block
(R27, R28). -/
theorem hostStep_done_false_iff {s : State} (txn : Txn) (hd : s.done = true) :
    (hostStep txn s).done = false ↔
      (∃ d : Word, d.getLsbD 1 = true ∧ txn = .write 0x0004#16 .four d) ∨
      (s.busy = false ∧ ∃ w : Word, txn = .write 0x0000#16 .four w) := by
  constructor
  · intro h
    rcases hostStep_cases txn s with ⟨_, _, _, _, -, k⟩ | ⟨-, -, -, k⟩ | ⟨w, hw, hb, -⟩ | ⟨d, hw, k⟩ | ⟨_, -, -, k⟩ |
      ⟨_, -, k⟩ | ⟨_, _, _, -, -, -, -, k⟩ | ⟨-, -, -, k⟩
    case inr.inr.inl => exact .inr ⟨hb, w, hw⟩
    case inr.inr.inr.inl => exact .inl ⟨d, by simpa [k, hd] using h, hw⟩
    all_goals simp [k, hd] at h
  · rintro (⟨d, hbit, rfl⟩ | ⟨hb, w, rfl⟩)
    · rw [hostStep, hostWrite_status, writeStatus_done, hbit, Bool.not_true, Bool.and_false]
    · rw [hostStep, hostWrite_cmd, writeCmd_idle w hb, accept_done]

/-- Settles O37: the engine leaves DONE set, reset clears it, and the host clears it in the two ways named. -/
theorem doneIsClearedOnlyByAckOrAcceptance : Obligations.DoneIsClearedOnlyByAckOrAcceptance := by
  intro s t h hd
  rcases step_cases h with ⟨hn, he⟩ | ⟨txn, hn, rfl⟩ | ⟨p, rest, hr, rfl⟩
  · have hdone : t.done = true := by
      obtain ⟨-, rfl | ⟨-, hdone, -⟩⟩ := engineStep_kept he
      · exact hd
      · exact hdone
    simp [hdone, engineNext_not_resetNext hn, engineNext_not_hostNext hn]
  · have := hostStep_done_false_iff (s := { s with schedule := s.schedule.tail }) txn hd
    simpa only [hostNext_not_resetNext hn, false_or, hostNext_iff_eq hn] using this
  · exact iff_of_true rfl (.inl ⟨p, rest, hr⟩)

/-! ### STATUS, ARG, PARAM0 and PARAM1, CTRL -/

/-- A flag under write-one-to-clear. -/
theorem and_not_decide (b : Bool) (p : Prop) [Decidable p] : (b && !decide p) = if p then false else b := by
  by_cases h : p
  · simp [h]
  · simp [h]

/-- STATUS reads 0 after reset (R26, R42). -/
theorem resetStep_statusWord (p : Option Txn) (s : State) : (resetStep p s).statusWord = 0#32 := by
  simp only [State.statusWord, resetStep, State.resetFor]
  decide

/-- Settles O38, by the value of STATUS as a number and the bits of a STATUS write as fields. -/
theorem statusReadsAndWritesItsFields : Obligations.StatusReadsAndWritesItsFields := by
  intro s d
  refine ⟨?_, ?_, hostStep_poll s, fun p => ?_⟩
  · rw [hostRead_status, statusWord_toNat]
  · rw [hostWrite_status, State.writeStatus, getLsbD_eq_bitsOf, getLsbD_eq_bitsOf, and_not_decide, and_not_decide]
  · rw [hostRead_status, resetStep_statusWord]

/-- Settles O40: the two words as numbers, and every step keeps the parameters they show. -/
theorem paramsReadTheInstanceAndNeverChange : Obligations.ParamsReadTheInstanceAndNeverChange := by
  intro s hpar
  refine ⟨param0_toNat hpar, param1_toNat hpar, fun d => ?_, fun t h => ?_⟩
  · obtain ⟨-, hparams⟩ := hostWrite_readOnly s d
    exact hparams
  · have hkept : t.par = s.par := step_par h
    simp only [hostRead_param0, hostRead_param1, State.param0, State.param1, hkept, and_self]

/-- Settles O39: ARG is written when idle, discarded when busy, and latched at acceptance. -/
theorem argReadsBackAsWritten : Obligations.ArgReadsBackAsWritten := by
  intro s d
  refine ⟨fun hb => ?_, fun hb => ?_, fun p => rfl, fun w hb => ?_⟩
  · rw [hostWrite_arg, writeArg_idle d hb]
    exact ⟨rfl, hostRead_arg _⟩
  · rw [hostWrite_arg, writeArg_busy d hb]
    exact ⟨rfl, hostRead_arg _⟩
  · rw [hostWrite_cmd, writeCmd_idle w hb]
    exact accept_arg_fields s w

/-- Settles O41: IE is bit 0 of the word written, and alone in the word read. -/
theorem ctrlHoldsTheInterruptEnable : Obligations.CtrlHoldsTheInterruptEnable := by
  intro s d
  refine ⟨?_, ?_, fun p => rfl⟩
  · rw [hostWrite_ctrl, State.writeCtrl, getLsbD_eq_bitsOf]
  · rw [hostRead_ctrl, ctrlWord_toNat]

/-! ### Reset -/

/-- A register file in which nothing counts as written. -/
theorem writtenB_eq_false {s : State} (h : ∀ r ∈ s.regs, r.written = false) (i : RegIdx) : s.writtenB i = false := by
  rw [State.writtenB]
  rcases lt_or_ge i.toNat s.regs.length with hi | hi
  · rw [List.getD_eq_getElem _ _ hi]
    exact h _ (List.getElem_mem hi)
  · rw [List.getD_eq_default _ _ hi]

/-- After a reset event no register counts as written (R42). -/
theorem resetStep_writtenB (p : Option Txn) (s : State) (i : RegIdx) : (resetStep p s).writtenB i = false := by
  refine writtenB_eq_false (fun r hr => ?_) i
  obtain ⟨k, -, rfl⟩ := List.mem_map.mp hr
  rfl

/-- In the initial state no register counts as written (R42). -/
theorem resetFor_writtenB (p : Params) (i : RegIdx) : (State.resetFor p).writtenB i = false := by
  refine writtenB_eq_false (fun r hr => ?_) i
  rw [List.eq_of_mem_replicate hr]

/-- Settles O50: every control field is literally at its value, and no register or byte counts as written. -/
theorem resetLeavesTheStatedValues : Obligations.ResetLeavesTheStatedValues := by
  rintro p s t (rfl | rfl)
  · exact ⟨rfl, rfl, rfl, rfl, rfl, rfl, rfl, rfl, rfl, rfl, rfl, rfl, rfl, resetStep_writtenB p s, fun _ => rfl⟩
  · exact ⟨rfl, rfl, rfl, rfl, rfl, rfl, rfl, rfl, rfl, rfl, rfl, rfl, rfl, resetFor_writtenB s.par, fun _ => rfl⟩

end Sys2Proof.Machine
end

section
/-! PROOFS. The statements about the host bus (20_memory.md): R64 to R67 and R78. -/

namespace Sys2Proof.Machine

/-! ### The offsets of the registers -/

/-- An aligned offset of a register of the map: 0x0000, 0x0004, ..., 0x0018 (R25). -/
abbrev isRegisterOffset (addr : Offset) : Prop := addr.toNat % 4 = 0 ∧ addr.toNat ≤ 0x0018

/-- A register write at an offset without a register is ignored (R64). -/
theorem writeRegister_unmapped {addr : Offset} (h : ¬ isRegisterOffset addr) (s : State) (d : Word) :
    s.writeRegister addr d = s := by
  rcases writeRegister_cases s addr d with ⟨rfl, -⟩ | ⟨rfl, -⟩ | ⟨rfl, -⟩ | ⟨rfl, -⟩ | ⟨-, -, -, -, hs⟩
  case inr.inr.inr.inr => exact hs
  all_goals exact absurd (by decide) h

/-- A register read at an offset without a register gives 0 (R64). -/
theorem readRegister_unmapped {addr : Offset} (h : ¬ isRegisterOffset addr) (s : State) :
    s.readRegister addr = 0#32 := by
  have hne : ∀ off, isRegisterOffset off → addr ≠ off := by
    rintro _ hoff rfl
    exact h hoff
  rw [State.readRegister, if_neg (hne offStatus (by decide)), if_neg (hne offArg (by decide)),
    if_neg (hne offReslen (by decide)), if_neg (hne offCtrl (by decide)), if_neg (hne offParam0 (by decide)),
    if_neg (hne offParam1 (by decide))]

/-! ### What a read does -/

/-- A read is one register, one buffer byte, or 0; the free values are numbered only by a byte whose value is open
(R63 to R67). -/
theorem hostRead_cases (addr : Offset) (size : Size) (s : State) :
    (size = .four ∧ regionOf addr = .registers ∧ hostRead addr size s = s.readRegister addr ∧
      s.afterRead addr size = s) ∨
    (∃ a, size = .one ∧ regionOf addr = .window a ∧ a < s.par.bufBytes ∧
      hostRead addr size s = (s.hostByte a).setWidth 32 ∧
      s.afterRead addr size = if s.openRead a then s.nextDraws else s) ∨
    (hostRead addr size s = 0#32 ∧ s.afterRead addr size = s) := by
  unfold hostRead State.afterRead
  cases hr : regionOf addr with
  | registers => cases size <;> simp
  | reserved => cases size <;> simp
  | window a =>
    cases size with
    | four => simp
    | one =>
      by_cases h : a < s.par.bufBytes
      · exact .inr (.inl ⟨a, rfl, rfl, h, by simp [h], by simp [h]⟩)
      · exact .inr (.inr ⟨by simp [h], by simp [h]⟩)

/-- Settles O42: a transaction that does something is a register access or a buffer byte access; the first fails at an
offset without a register, the second is excluded. -/
theorem unmappedTransactionsAreIgnored : Obligations.UnmappedTransactionsAreIgnored := by
  intro s addr size d _ hreg hwin
  have hbyte : ∀ a, size = .one → regionOf addr = .window a → ¬ a < s.par.bufBytes := by
    intro a hsize hr ha
    obtain ⟨haddr, -⟩ := toNat_of_regionOf_window hr
    exact hwin ⟨hsize, by omega, by omega⟩
  have hoff : size = .four → ¬ isRegisterOffset addr := fun hsize hmap => hreg ⟨hsize, hmap⟩
  have hwrite : hostWrite addr size d s = s := by
    rcases hostWrite_cases addr size d s with ⟨hsize, -, h⟩ | ⟨a, hsize, hr, ha, -⟩ | ⟨-, h⟩
    · exact h.trans (writeRegister_unmapped (hoff hsize) s d)
    · exact absurd ha (hbyte a hsize hr)
    · exact h
  have hread : hostRead addr size s = 0#32 ∧ s.afterRead addr size = s := by
    rcases hostRead_cases addr size s with ⟨hsize, -, h, hs⟩ | ⟨a, hsize, hr, ha, -, -⟩ | h
    · exact ⟨h.trans (readRegister_unmapped (hoff hsize) s), hs⟩
    · exact absurd ha (hbyte a hsize hr)
    · exact h
  obtain ⟨hv, hs⟩ := hread
  exact ⟨hwrite, hv, by rw [hostStep, hv, hs, State.observe]⟩

/-- In the buffer window a four-byte access does nothing, and neither does a one-byte access at or beyond BUFBYTES
(R65, R66). -/
theorem windowMisuse_ignored {s : State} {addr : Offset} (d : Word) (hb : s.par.bufBytes ≤ 0x1000)
    (hlo : 0x1000 ≤ addr.toNat) :
    (hostWrite addr .four d s = s ∧ hostRead addr .four s = 0#32) ∧
    (0x1000 + s.par.bufBytes ≤ addr.toNat → hostWrite addr .one d s = s ∧ hostRead addr .one s = 0#32) := by
  constructor
  · obtain ⟨hw, hr, -⟩ := unmappedTransactionsAreIgnored s addr .four d hb (by omega) (by simp)
    exact ⟨hw, hr⟩
  · intro hhi
    obtain ⟨hw, hr, -⟩ := unmappedTransactionsAreIgnored s addr .one d hb (by simp) (by omega)
    exact ⟨hw, hr⟩

/-! ### One byte of the buffer -/

theorem writeBuf_idle {s : State} (a : Nat) (d : Word) (h : s.busy = false) :
    s.writeBuf a d = { s with buf := Memory.write s.buf a (d.extractLsb' 0 8) } := by
  simp [State.writeBuf, h]

/-- A one-byte write at the offset of `BUF[a]` is a write of that byte (R65). -/
theorem hostWrite_bufByte {s : State} {a : Nat} (d : Word) (ha : a < s.par.bufBytes) (hb : s.par.bufBytes ≤ 0x1000) :
    hostWrite (BitVec.ofNat 16 (0x1000 + a)) .one d s = s.writeBuf a d := by
  obtain ⟨haddr, -⟩ := toNat_of_regionOf_window (regionOf_window (show a < 0x1000 by omega))
  rw [hostWrite_window d (by omega) (by omega) hb, haddr, Nat.add_sub_cancel_left]

/-- A one-byte read at the offset of `BUF[a]` gives that byte, zero-extended (R66). -/
theorem hostRead_bufByte {s : State} {a : Nat} (ha : a < s.par.bufBytes) (hb : s.par.bufBytes ≤ 0x1000) :
    hostRead (BitVec.ofNat 16 (0x1000 + a)) .one s = (s.hostByte a).setWidth 32 := by
  simp only [hostRead, regionOf_window (show a < 0x1000 by omega), if_pos ha]

/-- Idle, the byte the host reads is the stored one (R66). -/
theorem hostByte_stored {s : State} {a : Nat} {b : Byte} (hbusy : s.busy = false) (h : Memory.read s.buf a = some b) :
    s.hostByte a = b := by
  simp [State.hostByte, State.bufByte, hbusy, h]

/-- A read changes the host's observation and the number of the next free value alone (R66, R72). -/
theorem hostStep_read (addr : Offset) (size : Size) (s : State) :
    ∃ n, hostStep (.read addr size) s = { s with reads := hostRead addr size s :: s.reads, draws := n } := by
  have hafter : s.afterRead addr size = s ∨ s.afterRead addr size = s.nextDraws := by
    rcases hostRead_cases addr size s with ⟨-, -, -, h⟩ | ⟨a, -, -, -, -, h⟩ | ⟨-, h⟩
    · exact .inl h
    · rw [h]
      exact (ite_eq_or_eq _ _ _).symm
    · exact .inl h
  rw [hostStep]
  rcases hafter with h | h
  · exact ⟨s.draws, by rw [h]; rfl⟩
  · exact ⟨s.nextDraws.draws, by rw [h]; rfl⟩

/-- Settles O43: idle, the write is one write of the byte list; busy, it is `overrun`; the last clause is R67's. -/
theorem bufferWriteStoresOneByte : Obligations.BufferWriteStoresOneByte := by
  intro s a d ha hb
  rw [hostWrite_bufByte d ha hb]
  refine ⟨fun hbusy => writeBuf_busy a d hbusy, fun hidle => ?_, fun addr hlo _ => ?_⟩
  · rw [writeBuf_idle a d hidle]
    exact ⟨read_write_same s.buf a _, fun b hne => read_write_other s.buf _ (by omega), rfl⟩
  · obtain ⟨⟨hfour, -⟩, hone⟩ := windowMisuse_ignored d hb hlo
    exact ⟨hfour, fun hhi => (hone hhi).left⟩

/-- Settles O44: the read gives a byte, the stored one when idle; the last clause is R67's. -/
theorem bufferReadReturnsTheStoredByte : Obligations.BufferReadReturnsTheStoredByte := by
  intro s a ha hb
  refine ⟨fun b hidle hstored => ?_, ?_, hostStep_read _ _ s, fun addr hlo _ => ?_⟩
  · rw [hostRead_bufByte ha hb, hostByte_stored hidle hstored]
  · rw [hostRead_bufByte ha hb, BitVec.toNat_setWidth_of_le (by decide)]
    exact (s.hostByte a).isLt
  · obtain ⟨⟨-, hfour⟩, hone⟩ := windowMisuse_ignored 0#32 hb hlo
    exact ⟨hfour, fun hhi => (hone hhi).right⟩

/-! ### A busy block -/

/-- While BUSY a host transaction changes at most DONE, OVR and IE, the host's observation and the number of the next free
value (R26, R30, R37, R72). -/
theorem hostStep_busy {s : State} (txn : Txn) (hbusy : s.busy = true) :
    ∃ done ovr ie reads draws,
      hostStep txn s = { s with done := done, ovr := ovr, ie := ie, reads := reads, draws := draws } := by
  have hidle : s.busy ≠ false := by simp [hbusy]
  rcases hostStep_cases txn s with ⟨_, _, _, _, -, h⟩ | ⟨-, -, -, h⟩ | ⟨_, -, hf, -⟩ | ⟨_, -, h⟩ | ⟨_, -, hf, -⟩ |
    ⟨_, -, h⟩ | ⟨_, _, _, -, -, -, hf, -⟩ | ⟨-, -, -, h⟩
  · exact ⟨_, _, _, _, _, h⟩
  · exact ⟨_, _, _, _, _, h⟩
  · exact absurd hf hidle
  · exact ⟨_, _, _, _, _, h⟩
  · exact absurd hf hidle
  · exact ⟨_, _, _, _, _, h⟩
  · exact absurd hf hidle
  · exact ⟨_, _, _, _, _, h⟩

/-- Settles O46: what a busy block's host can change is none of the command's inputs. -/
theorem inputsAreFrozenWhileBusy : Obligations.InputsAreFrozenWhileBusy := by
  intro s txn _ hbusy
  obtain ⟨_, _, _, _, _, h⟩ := hostStep_busy txn hbusy
  rw [h]
  exact ⟨rfl, rfl, rfl, rfl, rfl, hbusy⟩

end Sys2Proof.Machine
end

section
/-! PROOFS. The statements about the command word (30_encoding.md): R94, R96, R97 and R102, with R242 and R243. -/

namespace Sys2Proof.Machine

open Sys2Proof.Laws

/-! ### The rows of the opcode map (R94), each named by any command of it -/

/-- The opcode of a command's row (R94). -/
def rowOpcode : Instr → BitVec 6
  | .b2i _ => 0x01#6
  | .i2bfix _ => 0x02#6
  | .i2bmin _ => 0x03#6
  | .add _ _ _ => 0x04#6
  | .sub _ _ _ => 0x05#6
  | .mullo _ _ _ => 0x06#6
  | .mulhi _ _ _ => 0x07#6
  | .montmul _ _ _ _ => 0x08#6
  | .modexp _ _ _ _ => 0x09#6
  | .modexpc _ _ _ _ => 0x0A#6

/-- The register fields of `w` that the form of `i` does not use (R92). -/
def unusedFields (w : Word) : Instr → List RegIdx
  | .b2i _ => [rs1Field w, rs2Field w, rs3Field w]
  | .i2bfix _ => [rdField w, rs2Field w, rs3Field w]
  | .i2bmin _ => [rdField w, rs2Field w, rs3Field w]
  | .add _ _ _ => [rs3Field w]
  | .sub _ _ _ => [rs3Field w]
  | .mullo _ _ _ => [rs3Field w]
  | .mulhi _ _ _ => [rs3Field w]
  | .montmul _ _ _ _ => []
  | .modexp _ _ _ _ => []
  | .modexpc _ _ _ _ => []

/-- The command of the row of `i` whose register fields are those of `w`. -/
def withFieldsOf (w : Word) : Instr → Instr
  | .b2i _ => .b2i (rdField w)
  | .i2bfix _ => .i2bfix (rs1Field w)
  | .i2bmin _ => .i2bmin (rs1Field w)
  | .add _ _ _ => .add (rdField w) (rs1Field w) (rs2Field w)
  | .sub _ _ _ => .sub (rdField w) (rs1Field w) (rs2Field w)
  | .mullo _ _ _ => .mullo (rdField w) (rs1Field w) (rs2Field w)
  | .mulhi _ _ _ => .mulhi (rdField w) (rs1Field w) (rs2Field w)
  | .montmul _ _ _ _ => .montmul (rdField w) (rs1Field w) (rs2Field w) (rs3Field w)
  | .modexp _ _ _ _ => .modexp (rdField w) (rs1Field w) (rs2Field w) (rs3Field w)
  | .modexpc _ _ _ _ => .modexpc (rdField w) (rs1Field w) (rs2Field w) (rs3Field w)

/-- What R96 asks of a legal word of the row of `i`. -/
abbrev fitsRow (w : Word) (i : Instr) : Prop :=
  res0Field w = 0#2 ∧ res1Field w = 0#8 ∧ opField w = rowOpcode i ∧ ∀ f ∈ unusedFields w i, f = 0#4

theorem withFieldsOf_mnemonic (w : Word) (i : Instr) : (withFieldsOf w i).mnemonic = i.mnemonic := by
  cases i <;> rfl

/-- Whether a word fits a row does not depend on the register fields of the command that names the row. -/
theorem fitsRow_withFieldsOf (w : Word) (i : Instr) : fitsRow w (withFieldsOf w i) ↔ fitsRow w i := by
  cases i <;> rfl

/-- The mnemonic names the row: the ten are different. -/
theorem withFieldsOf_eq_of_mnemonic {w : Word} {i j : Instr} (h : j.mnemonic = i.mnemonic) :
    withFieldsOf w j = withFieldsOf w i := by
  cases i <;> cases j <;> simp_all [Instr.mnemonic, withFieldsOf]

theorem fitsRow_of_mnemonic {w : Word} {i j : Instr} (h : j.mnemonic = i.mnemonic) (hj : fitsRow w j) : fitsRow w i := by
  rw [← fitsRow_withFieldsOf, withFieldsOf_eq_of_mnemonic h, fitsRow_withFieldsOf] at hj
  exact hj

/-! ### The decoder by opcode -/

theorem whenUnusedZero_eq_ok_iff {fs : List RegIdx} {i j : Instr} :
    whenUnusedZero fs i = .ok j ↔ (∀ f ∈ fs, f = 0#4) ∧ i = j := by
  rw [whenUnusedZero]
  split
  · rw [Except.ok.injEq]
    exact (and_iff_right ‹_›).symm
  · simp [*]

theorem whenUnusedZero_eq_illegal_iff {fs : List RegIdx} {i : Instr} :
    whenUnusedZero fs i = .error .illegalCmd ↔ ¬ ∀ f ∈ fs, f = 0#4 := by
  rw [whenUnusedZero]
  split
  · exact iff_of_false nofun (not_not_intro ‹_›)
  · exact iff_of_true rfl ‹_›

/-- A nonzero reserved field makes a word illegal (R96). -/
theorem decode_of_reserved {w : Word} (h : res0Field w ≠ 0#2 ∨ res1Field w ≠ 0#8) :
    decode w = .error .illegalCmd := if_pos h

/-- With the reserved fields 0 and the opcode of a row, the unused register fields decide (R92, R95). -/
theorem decode_of_opcode {w : Word} {i : Instr} (h0 : res0Field w = 0#2) (h1 : res1Field w = 0#8)
    (hop : opField w = rowOpcode i) : decode w = whenUnusedZero (unusedFields w i) (withFieldsOf w i) := by
  cases i <;> simp [decode, h0, h1, hop, rowOpcode, unusedFields, withFieldsOf, whenUnusedZero]

/-- The opcodes 0x00 and 0x0B to 0x3F are illegal (R96). -/
theorem decode_of_bad_opcode {w : Word} (h : (opField w).toNat = 0 ∨ 0x0B ≤ (opField w).toNat) :
    decode w = .error .illegalCmd := by
  have hne : ∀ c : BitVec 6, 1 ≤ c.toNat ∧ c.toNat ≤ 0x0A → opField w ≠ c := by
    rintro _ hc rfl
    omega
  simp [decode, hne]

/-- Every opcode from 0x01 to 0x0A is that of a row (R94). -/
theorem exists_rowOpcode (op : BitVec 6) (h : 1 ≤ op.toNat ∧ op.toNat ≤ 0x0A) : ∃ i, op = rowOpcode i := by
  have hrow : ∃ i ∈ [Instr.b2i 0, .i2bfix 0, .i2bmin 0, .add 0 0 0, .sub 0 0 0, .mullo 0 0 0, .mulhi 0 0 0,
      .montmul 0 0 0 0, .modexp 0 0 0 0, .modexpc 0 0 0 0], op = rowOpcode i := by
    revert op
    decide
  obtain ⟨i, -, hi⟩ := hrow
  exact ⟨i, hi⟩

/-- Everything the decoder can do: refuse a reserved field, refuse an opcode, or look at a row's unused register fields. -/
theorem decode_cases (w : Word) :
    ((res0Field w ≠ 0#2 ∨ res1Field w ≠ 0#8) ∧ decode w = .error .illegalCmd) ∨
    (((opField w).toNat = 0 ∨ 0x0B ≤ (opField w).toNat) ∧ decode w = .error .illegalCmd) ∨
    (∃ i, res0Field w = 0#2 ∧ res1Field w = 0#8 ∧ opField w = rowOpcode i ∧
      decode w = whenUnusedZero (unusedFields w i) (withFieldsOf w i)) := by
  by_cases hr : res0Field w ≠ 0#2 ∨ res1Field w ≠ 0#8
  · exact .inl ⟨hr, decode_of_reserved hr⟩
  · by_cases hb : (opField w).toNat = 0 ∨ 0x0B ≤ (opField w).toNat
    · exact .inr (.inl ⟨hb, decode_of_bad_opcode hb⟩)
    · obtain ⟨h0, h1⟩ : res0Field w = 0#2 ∧ res1Field w = 0#8 := by simpa using hr
      obtain ⟨i, hop⟩ := exists_rowOpcode (opField w) (by omega)
      exact .inr (.inr ⟨i, h0, h1, hop, decode_of_opcode h0 h1 hop⟩)

/-- A word decodes to a command exactly when it fits the command's row and has its register fields (R94, R96). -/
theorem decode_eq_ok_iff {w : Word} {i : Instr} : decode w = .ok i ↔ fitsRow w i ∧ withFieldsOf w i = i := by
  constructor
  · intro h
    rcases decode_cases w with ⟨-, hd⟩ | ⟨-, hd⟩ | ⟨j, h0, h1, hop, hd⟩
    · rw [hd] at h
      cases h
    · rw [hd] at h
      cases h
    · rw [hd, whenUnusedZero_eq_ok_iff] at h
      obtain ⟨hz, rfl⟩ := h
      exact ⟨(fitsRow_withFieldsOf w j).mpr ⟨h0, h1, hop, hz⟩, withFieldsOf_eq_of_mnemonic (withFieldsOf_mnemonic w j)⟩
  · rintro ⟨⟨h0, h1, hop, hz⟩, hi⟩
    rw [decode_of_opcode h0 h1 hop, whenUnusedZero_eq_ok_iff]
    exact ⟨hz, hi⟩

/-! ### The match and mask columns -/

/-- A word is the one assembled from these fields exactly when it has them and its reserved fields are 0 (R91). -/
theorem eq_packWord_iff {w : Word} {op : BitVec 6} {rd rs1 rs2 rs3 : RegIdx} :
    w = packWord op rd rs1 rs2 rs3 ↔ res0Field w = 0#2 ∧ res1Field w = 0#8 ∧ opField w = op ∧
      rdField w = rd ∧ rs1Field w = rs1 ∧ rs2Field w = rs2 ∧ rs3Field w = rs3 := by
  constructor
  · rintro rfl
    obtain ⟨hop, hd, hs1, hs2, hs3, h0, h1⟩ := packWord_fields op rd rs1 rs2 rs3
    exact ⟨h0, h1, hop, hd, hs1, hs2, hs3⟩
  · rintro ⟨h0, h1, rfl, rfl, rfl, rfl, rfl⟩
    exact (packWord_of_fields w h0 h1).symm

/-- A match value has the opcode of its row and every other bit 0 (R94). -/
theorem match_eq_packWord (i : Instr) : i.matchMask.1 = packWord (rowOpcode i) 0#4 0#4 0#4 0#4 := by
  cases i <;> simp only [Instr.matchMask, rowOpcode] <;> decide

/-- Under a row's mask stand the reserved fields, the opcode and the register fields the form does not use. -/
theorem and_mask_eq_match_iff (w : Word) (i : Instr) : w &&& i.matchMask.2 = i.matchMask.1 ↔ fitsRow w i := by
  have ones2 (x : BitVec 2) : x &&& 3#2 = x := BitVec.and_allOnes
  have ones4 (x : BitVec 4) : x &&& 15#4 = x := BitVec.and_allOnes
  have ones6 (x : BitVec 6) : x &&& 63#6 = x := BitVec.and_allOnes
  have ones8 (x : BitVec 8) : x &&& 255#8 = x := BitVec.and_allOnes
  rw [match_eq_packWord, eq_packWord_iff]
  cases i <;>
    simp only [fitsRow, Instr.matchMask, unusedFields, opField, rdField, rs1Field, rs2Field, rs3Field, res0Field,
      res1Field, BitVec.extractLsb'_and] <;>
    simp [ones2, ones4, ones6, ones8]

/-- Settles O3: both sides say that the word fits the row. -/
theorem decodeFollowsMatchAndMask : Obligations.DecodeFollowsMatchAndMask := by
  intro w i
  rw [and_mask_eq_match_iff]
  constructor
  · rintro ⟨j, hd, hm⟩
    obtain ⟨hfits, -⟩ := decode_eq_ok_iff.mp hd
    exact fitsRow_of_mnemonic hm hfits
  · intro hfits
    have hrow := withFieldsOf_mnemonic w i
    exact ⟨withFieldsOf w i, decode_eq_ok_iff.mpr ⟨(fitsRow_withFieldsOf w i).mpr hfits,
      withFieldsOf_eq_of_mnemonic hrow⟩, hrow⟩

/-! ### Illegal words -/

theorem bitsOf_op (w : Word) : bitsOf w 5 0 = (opField w).toNat := (extractLsb'_toNat_eq_bitsOf w 5 0).symm

/-- A field of R11 is nonzero exactly when the extracted field is. -/
theorem bitsOf_ne_zero_iff (w : Word) (hi lo : Nat) :
    bitsOf w hi lo ≠ 0 ↔ w.extractLsb' lo (hi - lo + 1) ≠ 0#(hi - lo + 1) := by
  rw [← extractLsb'_toNat_eq_bitsOf, ne_eq, ne_eq, ← BitVec.toNat_inj, BitVec.toNat_zero]

theorem bitsOf_res0_ne_zero_iff (w : Word) : bitsOf w 7 6 ≠ 0 ↔ res0Field w ≠ 0#2 := bitsOf_ne_zero_iff w 7 6
theorem bitsOf_res1_ne_zero_iff (w : Word) : bitsOf w 31 24 ≠ 0 ↔ res1Field w ≠ 0#8 := bitsOf_ne_zero_iff w 31 24
theorem bitsOf_rd_ne_zero_iff (w : Word) : bitsOf w 11 8 ≠ 0 ↔ rdField w ≠ 0#4 := bitsOf_ne_zero_iff w 11 8
theorem bitsOf_rs1_ne_zero_iff (w : Word) : bitsOf w 15 12 ≠ 0 ↔ rs1Field w ≠ 0#4 := bitsOf_ne_zero_iff w 15 12
theorem bitsOf_rs2_ne_zero_iff (w : Word) : bitsOf w 19 16 ≠ 0 ↔ rs2Field w ≠ 0#4 := bitsOf_ne_zero_iff w 19 16
theorem bitsOf_rs3_ne_zero_iff (w : Word) : bitsOf w 23 20 ≠ 0 ↔ rs3Field w ≠ 0#4 := bitsOf_ne_zero_iff w 23 20

/-- The ways for a word to be illegal, in the fields of R91 (R96): in a row, exactly a nonzero unused register field. -/
theorem decode_eq_illegal_iff (w : Word) :
    decode w = .error .illegalCmd ↔
      ((opField w).toNat = 0 ∨ 0x0B ≤ (opField w).toNat) ∨ res0Field w ≠ 0#2 ∨ res1Field w ≠ 0#8 ∨
      ((opField w).toNat = 0x01 ∧ (rs1Field w ≠ 0#4 ∨ rs2Field w ≠ 0#4 ∨ rs3Field w ≠ 0#4)) ∨
      (((opField w).toNat = 0x02 ∨ (opField w).toNat = 0x03) ∧
        (rdField w ≠ 0#4 ∨ rs2Field w ≠ 0#4 ∨ rs3Field w ≠ 0#4)) ∨
      (0x04 ≤ (opField w).toNat ∧ (opField w).toNat ≤ 0x07 ∧ rs3Field w ≠ 0#4) := by
  rcases decode_cases w with ⟨hr, hd⟩ | ⟨hb, hd⟩ | ⟨i, h0, h1, hop, hd⟩
  · exact iff_of_true hd (.inr (or_assoc.mp (.inl hr)))
  · exact iff_of_true hd (.inl hb)
  · rw [hd, whenUnusedZero_eq_illegal_iff, h0, h1, hop]
    cases i <;> simp [unusedFields, rowOpcode, imp_iff_not_or]

/-- Decoding ends in ILLEGAL_CMD or in a command (R95, R96). -/
theorem decode_illegal_or_ok (w : Word) : decode w = .error .illegalCmd ∨ ∃ i, decode w = .ok i := by
  cases hd : decode w with
  | error e => exact .inl (congrArg _ (decode_error hd))
  | ok i => exact .inr ⟨i, rfl⟩

/-! ### The engine's step on the latched word -/

/-- Raising an error writes the status alone (R14, R241). -/
theorem raised_raise (s : State) (e : ErrorCode) : raised (errorBits e) s (s.raise e) ∧ (s.raise e).fault = s.fault :=
  ⟨⟨⟨rfl, rfl, rfl⟩, rfl, rfl, fun _ _ => ⟨rfl, rfl⟩, fun _ => rfl, rfl, rfl, rfl, rfl, rfl, rfl, rfl, rfl⟩, rfl⟩

theorem engineStep_of_error {s : State} {l : Latch} {e : ErrorCode} (hl : s.inflight = some l)
    (hd : decode l.cmd = .error e) : engineStep s = .next (s.raise e) := by
  simp only [engineStep, hl, hd]

theorem engineStep_of_ok {s : State} {l : Latch} {i : Instr} (hl : s.inflight = some l) (hd : decode l.cmd = .ok i) :
    engineStep s = exec i s := by
  simp only [engineStep, hl, hd]

/-- Settles O4: the decoder by its cases; then the engine raises the word's error. -/
theorem illegalWordCompletesWithIllegalCmd : Obligations.IllegalWordCompletesWithIllegalCmd := by
  refine fun w => ⟨?_, decode_illegal_or_ok w, fun hd s a hl => ?_⟩
  · rw [bitsOf_op, bitsOf_res0_ne_zero_iff, bitsOf_res1_ne_zero_iff, bitsOf_rd_ne_zero_iff, bitsOf_rs1_ne_zero_iff,
      bitsOf_rs2_ne_zero_iff, bitsOf_rs3_ne_zero_iff]
    exact decode_eq_illegal_iff w
  · exact ⟨s.raise .illegalCmd, engineStep_of_error hl hd, raised_raise s .illegalCmd⟩

/-! ### Registers out of range -/

/-- Code 2 is that of REG_RANGE alone (R240). -/
theorem errorBits_ne_of_ne_regRange {e : ErrorCode} (h : e ≠ .regRange) : errorBits e ≠ 2#4 := by
  cases e <;> simp_all [errorBits]

/-- No command's own rule writes code 2 (R97): the rules raise other errors, or leave ERRCODE alone. -/
theorem ruleOf_errcode_ne_regRange (i : Instr) {s : State} (h : s.errcode ≠ 2#4) : (ruleOf i s).errcode ≠ 2#4 := by
  rcases ruleOf_cases i s with ⟨e, -, he, k⟩ | ⟨_, -, k⟩ | ⟨_, _, -, -, k⟩ | ⟨_, _, _, -, -, k⟩ | ⟨_, _, _, -, k⟩ |
    ⟨_, _, -, k⟩ <;> rw [k]
  case inl => exact errorBits_ne_of_ne_regRange he
  all_goals exact h

/-- With 16 registers every register field is in range (R97). -/
theorem wf_sixteen (i : Instr) : i.wf 16 := fun r _ => r.isLt

/-- Settles O6: out of range the engine raises REG_RANGE; in range no case of its step writes code 2. -/
theorem registerOutOfRangeCompletesWithRegRange : Obligations.RegisterOutOfRangeCompletesWithRegRange := by
  refine ⟨fun s l i hl hd hwf => ?_, wf_sixteen, fun s t hn h hs => ?_⟩
  · exact ⟨s.raise .regRange, (engineStep_of_ok hl hd).trans (exec_of_not_wf hwf), raised_raise s .regRange⟩
  · rcases engineStep_cases h with ⟨-, rfl⟩ | ⟨l, -, ⟨e, hd, rfl⟩ | ⟨i, -, ⟨hwf, -⟩ | ⟨-, -, rfl⟩ | ⟨-, -, rfl⟩⟩⟩
    · exact hs
    · obtain rfl := decode_error hd
      exact errorBits_ne_of_ne_regRange (e := .illegalCmd) (by decide)
    · exact absurd (hn ▸ wf_sixteen i) hwf
    · exact hs
    · exact ruleOf_errcode_ne_regRange i hs

/-! ### Examples -/

/-- Settles O5, word by word. -/
theorem exampleWordsDecode : Obligations.ExampleWordsDecode := by
  unfold Obligations.ExampleWordsDecode
  decide

end Sys2Proof.Machine
end

section
/-! PROOFS. The statements about the converters (40_codec.md): R121 and R125 to R128. -/

namespace Sys2Proof.Machine

open Sys2Proof.Laws

/-! ### The word of a command, and issuing it -/

/-- A word decodes to a command exactly when it is the command's word (R91, R94): in each row both sides ask for the same
fields, in another order. -/
theorem decode_eq_ok_iff_eq_encode {w : Word} {i : Instr} : decode w = .ok i ↔ w = encode i := by
  rw [decode_eq_ok_iff]
  cases i <;> simp [encode, eq_packWord_iff, fitsRow, rowOpcode, unusedFields, withFieldsOf] <;> tauto

/-- The same on the words as numbers. -/
theorem decode_eq_ok_iff_toNat {w : Word} {i : Instr} : decode w = .ok i ↔ w.toNat = (encode i).toNat := by
  rw [decode_eq_ok_iff_eq_encode, BitVec.toNat_inj]

/-- A command issued to an idle block is run by the engine in the state of its acceptance (R27, R290). -/
theorem afterCommand_of_idle {s : State} (i : Instr) (h : s.busy = false) :
    afterCommand i s = exec i (s.accept (encode i)) := by
  rw [afterCommand, offCmd, hostWrite_cmd, writeCmd_idle _ h]
  exact engineStep_of_ok rfl (decode_eq_ok_iff_eq_encode.mpr rfl)

/-- The address and the length of a command in flight are the fields of its latched ARG (R93). -/
theorem argFields_of_inflight {s : State} {l : Latch} (h : s.inflight = some l) :
    s.argAddr = bitsOf l.arg 15 0 ∧ s.argLen = bitsOf l.arg 31 16 := by
  rw [State.argAddr, State.argLen, State.argLat, h]
  exact ⟨extractLsb'_toNat_eq_bitsOf l.arg 15 0, extractLsb'_toNat_eq_bitsOf l.arg 31 16⟩

theorem argLen_lt (s : State) : s.argLen < 2 ^ 16 := (s.argLat.extractLsb' 16 16).isLt

/-! ### What a completed command has changed -/

/-- A command that completes with one register written has changed nothing else but the status (R12, R14). -/
theorem setX_complete_frame {s : State} {rd : RegIdx} (v : Nat) (h : rd.toNat < s.regs.length) :
    let t := (s.setX rd v).complete
    t.x rd = v ∧ t.writtenB rd = true ∧ completed s t ∧ regsKeptBut [rd] s t ∧ bufKept s t ∧ t.c = s.c ∧
      t.reslen = s.reslen ∧ hostSideKept s t ∧ t.fault = s.fault := by
  refine ⟨setX_x_same v h, setX_writtenB_same v h, ⟨⟨rfl, rfl, rfl⟩, rfl, rfl⟩, fun i hi => ?_, fun _ => rfl, rfl, rfl,
    ⟨rfl, rfl, rfl, rfl, rfl, rfl⟩, rfl⟩
  have hne : i ≠ rd := List.ne_of_not_mem_cons hi
  exact ⟨setX_x_other s v hne, setX_writtenB_other s v hne⟩

/-- A command that completes with `n` bytes of `v` written has stored them big-endian from `a`, their number is in RESLEN, and
nothing else has changed but the status (R13, R14, R36). -/
theorem memWrite_complete_frame (s : State) (a v : Nat) {n : Nat} (h : n < 2 ^ 16) :
    let t := ((s.memWrite a n v).setReslen n).complete
    (∀ k < n, Memory.read t.buf (a + k) = some (byteBE n v k)) ∧
      bufKeptOutside a n s t ∧ t.reslen.toNat = n ∧ completed s t ∧ regsKeptBut [] s t ∧ t.c = s.c ∧
      hostSideKept s t ∧ t.fault = s.fault := by
  refine ⟨fun k hk => ?_, fun b hb => ?_, Nat.mod_eq_of_lt h, ⟨⟨rfl, rfl, rfl⟩, rfl, rfl⟩, fun _ _ => ⟨rfl, rfl⟩, rfl,
    ⟨rfl, rfl, rfl, rfl, rfl, rfl⟩, rfl⟩
  · exact (read_writeBE s.buf a n v (a + k)).trans (by rw [if_pos (by omega), Nat.add_sub_cancel_left])
  · exact (read_writeBE s.buf a n v b).trans (if_neg (by omega))

/-! ### The three rules, case by case

The address and the length of the command are `a` and `n`, wherever its latched ARG comes from; for I2BMIN `n` is the number of
minimal bytes instead (R121, R125, R126). -/

section Rules

variable {s : State} {r : RegIdx} {a n : Nat} (ha : s.argAddr = a) (hn : s.argLen = n)

/-- B2I reads no register, so with its destination in range it is its rule. -/
theorem exec_b2i (hwf : (Instr.b2i r).wf s.par.nreg) : exec (.b2i r) s = .next (ruleOf (.b2i r) s) :=
  exec_of_wf hwf nofun

include ha hn

theorem ruleOf_b2i_beyond (h : s.par.bufBytes < a + n) : ruleOf (.b2i r) s = s.raise .bufferRange := by
  subst ha hn
  exact if_pos h

theorem ruleOf_b2i_overflow (hfit : a + n ≤ s.par.bufBytes) (hw : ∀ k < n, s.writtenBuf (a + k) = true)
    (hv : 2 ^ s.par.w ≤ s.memRead a n) : ruleOf (.b2i r) s = s.raise .encodeOverflow := by
  subst ha hn
  simp only [ruleOf, if_neg (not_lt.mpr hfit), bufWritten_iff.mpr hw, whenWritten_true]
  exact if_pos hv

theorem ruleOf_b2i_value (hfit : a + n ≤ s.par.bufBytes) (hw : ∀ k < n, s.writtenBuf (a + k) = true)
    (hv : s.memRead a n < 2 ^ s.par.w) : ruleOf (.b2i r) s = (s.setX r (s.memRead a n)).complete := by
  subst ha hn
  simp only [ruleOf, if_neg (not_lt.mpr hfit), bufWritten_iff.mpr hw, whenWritten_true]
  exact if_neg (not_le.mpr hv)

theorem ruleOf_i2bfix_beyond (h : s.par.bufBytes < a + n) : ruleOf (.i2bfix r) s = s.raise .bufferRange := by
  subst ha hn
  exact if_pos h

theorem ruleOf_i2bfix_tooLarge (hfit : a + n ≤ s.par.bufBytes) (hv : 256 ^ n ≤ s.x r) :
    ruleOf (.i2bfix r) s = s.raise .integerTooLarge := by
  subst ha hn
  have hlong : s.argLen < minlen (s.x r) := not_le.mp (minlen_le_iff.not.mpr (not_lt.mpr hv))
  exact (if_neg (not_lt.mpr hfit)).trans (if_pos hlong)

theorem ruleOf_i2bfix_bytes (hfit : a + n ≤ s.par.bufBytes) (hv : s.x r < 256 ^ n) :
    ruleOf (.i2bfix r) s = ((s.memWrite a n (s.x r)).setReslen n).complete := by
  subst ha hn
  exact (if_neg (not_lt.mpr hfit)).trans (if_neg (not_lt.mpr (minlen_le_iff.mpr hv)))

omit hn

theorem ruleOf_i2bmin_beyond (hk : minlen (s.x r) = n) (h : s.par.bufBytes < a + n) :
    ruleOf (.i2bmin r) s = s.raise .bufferRange := by
  subst ha hk
  exact if_pos h

theorem ruleOf_i2bmin_bytes (hk : minlen (s.x r) = n) (hfit : a + n ≤ s.par.bufBytes) :
    ruleOf (.i2bmin r) s = ((s.memWrite a n (s.x r)).setReslen n).complete := by
  subst ha hk
  exact if_neg (not_lt.mpr hfit)

end Rules

/-! ### The value of a byte string, and its bytes back -/

/-- `MemRead` is the sum of R13. -/
theorem readBE_eq_sum (f : Nat → Byte) (a n : Nat) :
    readBE f a n = ∑ k ∈ Finset.range n, (f (a + k)).toNat * 256 ^ (n - 1 - k) := by
  induction n generalizing a with
  | zero => rfl
  | succ n ih =>
    rw [readBE, ih, Finset.sum_range_succ', add_comm]
    congr 1
    refine Finset.sum_congr rfl fun k _ => ?_
    rw [show a + 1 + k = a + (k + 1) by omega, show n + 1 - 1 - (k + 1) = n - 1 - k by omega]

/-- Multiples of `256^n` do not show in the low `n` bytes. -/
theorem byteBE_add_mul_pow (x v : Nat) {n k : Nat} (hk : k < n) : byteBE n (x * 256 ^ n + v) k = byteBE n v k := by
  have hsplit : x * 256 ^ n = 256 ^ (n - 1 - k) * (x * 256 ^ k * 256) := by
    have hexp : n = (n - 1 - k) + (k + 1) := by omega
    conv_lhs => rw [hexp, pow_add, pow_succ]
    ring
  apply BitVec.eq_of_toNat_eq
  simp only [byteBE, BitVec.toNat_ofNat]
  rw [hsplit, Nat.mul_add_div (by positivity)]
  exact Nat.mul_add_mod_self_right ..

/-- The bytes of the value of a byte string are its bytes (R13). -/
theorem byteBE_readBE (f : Nat → Byte) (a : Nat) {n k : Nat} (hk : k < n) : byteBE n (readBE f a n) k = f (a + k) := by
  induction n generalizing a k with
  | zero => omega
  | succ n ih =>
    cases k with
    | zero =>
      have hdiv : ((f a).toNat * 256 ^ n + readBE f (a + 1) n) / 256 ^ n = (f a).toNat := by
        rw [mul_comm, Nat.mul_add_div (by positivity), Nat.div_eq_of_lt (readBE_lt f (a + 1) n), add_zero]
      rw [byteBE, readBE, Nat.add_sub_cancel, Nat.sub_zero, hdiv, BitVec.ofNat_toNat, BitVec.setWidth_eq, add_zero]
    | succ k =>
      have hk : k < n := by omega
      have hshift : byteBE (n + 1) (readBE f a (n + 1)) (k + 1) = byteBE n (readBE f a (n + 1)) k := by
        rw [byteBE, byteBE, show n + 1 - 1 - (k + 1) = n - 1 - k by omega]
      rw [hshift, readBE, byteBE_add_mul_pow _ _ hk, ih (a + 1) hk, show a + 1 + k = a + (k + 1) by omega]

/-- Leading zero bytes do not change the value (R128). -/
theorem readBE_leading_zeros {f : Nat → Byte} {a z : Nat} (m : Nat) (h : ∀ k < z, f (a + k) = 0#8) :
    readBE f a (z + m) = readBE f (a + z) m := by
  induction z generalizing a with
  | zero => simp
  | succ z ih =>
    have h0 : f a = 0#8 := h 0 (by omega)
    have htail : ∀ k < z, f (a + 1 + k) = 0#8 := fun k hk => by
      rw [show a + 1 + k = a + (k + 1) by omega]
      exact h (k + 1) (by omega)
    rw [show z + 1 + m = z + m + 1 by omega, readBE, h0, ih htail, show a + 1 + z = a + (z + 1) by omega]
    simp

/-- A byte string without a leading zero byte is the shortest of its value (R11, R128). -/
theorem minlen_readBE {f : Nat → Byte} {a n : Nat} (h : 0 < n → f a ≠ 0#8) : minlen (readBE f a n) = n := by
  refine minlen_eq (readBE_lt f a n) ?_
  cases n with
  | zero => exact .inl rfl
  | succ n =>
    have hpos : 0 < (f a).toNat := Nat.pos_of_ne_zero fun h0 => h n.succ_pos (BitVec.eq_of_toNat_eq h0)
    exact .inr (le_add_right (Nat.le_mul_of_pos_left _ hpos))

/-! ### Written buffer bytes -/

theorem read_eq_bufByte {s : State} {a : Nat} (h : s.writtenBuf a = true) :
    Memory.read s.buf a = some (s.bufByte a) := by
  obtain ⟨b, hb⟩ := Option.isSome_iff_exists.mp h
  rw [State.bufByte, hb, Option.getD_some]

/-- Over written bytes `MemRead` is the sum of R13 over the stored bytes. -/
theorem memRead_eq_sum {s : State} {a n : Nat} (hw : ∀ k < n, s.writtenBuf (a + k) = true) :
    s.memRead a n = ∑ k ∈ Finset.range n, ((Memory.read s.buf (a + k)).getD 0#8).toNat * 256 ^ (n - 1 - k) := by
  rw [State.memRead, readBE_eq_sum]
  refine Finset.sum_congr rfl fun k hk => ?_
  rw [read_eq_bufByte (hw k (Finset.mem_range.mp hk)), Option.getD_some]

/-! ### The three commands -/

/-- Settles O9: the rule of B2I in its three cases, its value by the sum of R13. -/
theorem b2iReadsTheBigEndianValue : Obligations.B2iReadsTheBigEndianValue := by
  intro s l rd a n v hinv hl hwf ha hn hv
  obtain ⟨-, ⟨hregs, -⟩, -⟩ := hinv
  obtain ⟨haddr, hlen⟩ := argFields_of_inflight hl
  rw [← ha] at haddr
  rw [← hn] at hlen
  have hexec := exec_b2i hwf
  refine ⟨fun w => ?_, fun hfar => ?_, fun hfit hw hbig => ?_, fun hfit hw hlt => ?_⟩
  · simp [decode_eq_ok_iff_toNat, encode, packWord_toNat]
  · rw [ruleOf_b2i_beyond haddr hlen hfar] at hexec
    exact ⟨_, hexec, raised_raise s .bufferRange⟩
  · rw [ruleOf_b2i_overflow haddr hlen hfit hw (by rwa [memRead_eq_sum hw, ← hv])] at hexec
    exact ⟨_, hexec, raised_raise s .encodeOverflow⟩
  · rw [ruleOf_b2i_value haddr hlen hfit hw (by rwa [memRead_eq_sum hw, ← hv]), memRead_eq_sum hw, ← hv] at hexec
    exact ⟨_, hexec, setX_complete_frame v (hregs ▸ hwf rd (List.mem_singleton_self rd))⟩

/-- Settles O11: the rule of I2BFIX in its three cases. -/
theorem i2bfixWritesTheFixedWidthBytes : Obligations.I2bfixWritesTheFixedWidthBytes := by
  intro s l rs1 a n _ hl hwf ha hn hsrc
  obtain ⟨haddr, hlen⟩ := argFields_of_inflight hl
  rw [← ha] at haddr
  rw [← hn] at hlen
  have hexec := exec_of_wf hwf hsrc
  refine ⟨fun w => ?_, fun hfar => ?_, fun hfit hbig => ?_, fun hfit hlt => ?_⟩
  · simp [decode_eq_ok_iff_toNat, encode, packWord_toNat]
  · rw [ruleOf_i2bfix_beyond haddr hlen hfar] at hexec
    exact ⟨_, hexec, raised_raise s .bufferRange⟩
  · rw [ruleOf_i2bfix_tooLarge haddr hlen hfit hbig] at hexec
    exact ⟨_, hexec, raised_raise s .integerTooLarge⟩
  · rw [ruleOf_i2bfix_bytes haddr hlen hfit hlt] at hexec
    exact ⟨_, hexec, memWrite_complete_frame s a (s.x rs1) (hlen ▸ argLen_lt s)⟩

/-- Settles O12: the rule of I2BMIN in its two cases, `k` being `minlen` of the value. -/
theorem i2bminWritesTheMinimalBytes : Obligations.I2bminWritesTheMinimalBytes := by
  intro s l rs1 a k hinv hl hwf ha hsrc hlt hleast
  obtain ⟨⟨-, -, -, -, -, -, hbuf⟩, -⟩ := hinv
  obtain ⟨haddr, -⟩ := argFields_of_inflight hl
  rw [← ha] at haddr
  have hk : minlen (s.x rs1) = k := minlen_eq hlt hleast
  have hexec := exec_of_wf hwf hsrc
  refine ⟨fun w => ?_, fun hfar => ?_, fun hfit => ?_⟩
  · simp [decode_eq_ok_iff_toNat, encode, packWord_toNat]
  · rw [ruleOf_i2bmin_beyond haddr hk hfar] at hexec
    exact ⟨_, hexec, raised_raise s .bufferRange⟩
  · rw [ruleOf_i2bmin_bytes haddr hk hfit] at hexec
    exact ⟨_, hexec, memWrite_complete_frame s a (s.x rs1) (by omega)⟩

/-! ### B2I and then a byte output, each issued by the host to an idle block -/

section Issued

variable {s : State} {r : RegIdx} {a n : Nat} (hidle : s.busy = false) (hr : r.toNat < s.par.nreg)
  (ha : a = bitsOf s.arg 15 0)

include hidle hr ha

/-- B2I issued to an idle block, the bytes in range and written and their value fitting: the register holds the value, and the
buffer is as before (R121). -/
theorem afterCommand_b2i (hregs : s.regs.length = s.par.nreg) (hn : n = bitsOf s.arg 31 16)
    (hfit : a + n ≤ s.par.bufBytes) (hw : ∀ k < n, s.writtenBuf (a + k) = true) (hv : s.memRead a n < 2 ^ s.par.w) :
    ∃ t, afterCommand (.b2i r) s = .next t ∧ t.err = false ∧ t.busy = false ∧ t.par = s.par ∧ t.arg = s.arg ∧
      t.buf = s.buf ∧ t.x r = s.memRead a n ∧ t.writtenB r = true := by
  obtain ⟨haddr, hlen⟩ := accept_arg_fields s (encode (.b2i r))
  rw [← ha] at haddr
  rw [← hn] at hlen
  have hexec := exec_b2i (s := s.accept (encode (.b2i r))) (List.forall_mem_singleton.mpr hr)
  rw [← afterCommand_of_idle _ hidle, ruleOf_b2i_value haddr hlen hfit hw hv] at hexec
  have hin : r.toNat < s.regs.length := hregs ▸ hr
  exact ⟨_, hexec, rfl, rfl, rfl, rfl, rfl, setX_x_same _ hin, setX_writtenB_same _ hin⟩

/-- I2BFIX issued to an idle block, the bytes in range and the value fitting them (R125). -/
theorem afterCommand_i2bfix (hw : s.writtenB r = true) (hn : n = bitsOf s.arg 31 16) (hfit : a + n ≤ s.par.bufBytes)
    (hv : s.x r < 256 ^ n) :
    ∃ u, afterCommand (.i2bfix r) s = .next u ∧ u.err = false ∧ u.reslen.toNat = n ∧
      u.buf = Memory.writeBE s.buf a n (s.x r) := by
  obtain ⟨haddr, hlen⟩ := accept_arg_fields s (encode (.i2bfix r))
  rw [← ha] at haddr
  rw [← hn] at hlen
  have hexec := exec_of_wf (i := .i2bfix r) (s := s.accept (encode (.i2bfix r))) (List.forall_mem_singleton.mpr hr)
    (List.forall_mem_singleton.mpr hw)
  rw [← afterCommand_of_idle _ hidle, ruleOf_i2bfix_bytes haddr hlen hfit hv] at hexec
  exact ⟨_, hexec, rfl, Nat.mod_eq_of_lt (hlen ▸ argLen_lt _), rfl⟩

/-- I2BMIN issued to an idle block, its minimal bytes in range (R126). -/
theorem afterCommand_i2bmin (hw : s.writtenB r = true) (hpar : s.par.wf) (hk : minlen (s.x r) = n)
    (hfit : a + n ≤ s.par.bufBytes) :
    ∃ u, afterCommand (.i2bmin r) s = .next u ∧ u.err = false ∧ u.reslen.toNat = n ∧
      u.buf = Memory.writeBE s.buf a n (s.x r) := by
  obtain ⟨-, -, -, -, -, -, hbuf⟩ := hpar
  obtain ⟨haddr, -⟩ := accept_arg_fields s (encode (.i2bmin r))
  rw [← ha] at haddr
  have hexec := exec_of_wf (i := .i2bmin r) (s := s.accept (encode (.i2bmin r))) (List.forall_mem_singleton.mpr hr)
    (List.forall_mem_singleton.mpr hw)
  rw [← afterCommand_of_idle _ hidle, ruleOf_i2bmin_bytes haddr hk hfit] at hexec
  exact ⟨_, hexec, rfl, Nat.mod_eq_of_lt (by omega), rfl⟩

end Issued

/-- Settles O13: I2BFIX writes over the bytes the bytes of their own value. -/
theorem roundTripGivesTheBytesBack : Obligations.RoundTripGivesTheBytesBack := by
  intro s r a n hinv hidle hr ha hn hfit hw hv
  obtain ⟨-, ⟨hregs, -⟩, -⟩ := hinv
  obtain ⟨t, ht, hterr, htidle, htpar, htarg, htbuf, htx, htw⟩ := afterCommand_b2i hidle hr ha hregs hn hfit hw hv
  obtain ⟨u, hu, huerr, hureslen, hubuf⟩ := afterCommand_i2bfix (a := a) (n := n) htidle (by rwa [htpar])
    (by rwa [htarg]) htw (by rwa [htarg]) (by rwa [htpar]) (by rw [htx]; exact readBE_lt _ a n)
  refine ⟨t, u, ht, hterr, hu, huerr, hureslen, fun b => ?_⟩
  rw [hubuf, htbuf, htx, read_writeBE]
  split
  · obtain ⟨k, rfl⟩ : ∃ k, b = a + k := ⟨b - a, by omega⟩
    have hk : k < n := by omega
    rw [Nat.add_sub_cancel_left, State.memRead, byteBE_readBE _ _ hk, read_eq_bufByte (hw k hk)]
  · rfl

/-- Settles O14: without its leading zero bytes a byte string has the same value, and is the shortest of it. -/
theorem minimalBytesDropLeadingZeros : Obligations.MinimalBytesDropLeadingZeros := by
  intro s r a n z hinv hidle hr ha hn hfit hw hv hz hzeros hfirst
  obtain ⟨hpar, ⟨hregs, -⟩, -⟩ := hinv
  obtain ⟨m, rfl⟩ := Nat.exists_eq_add_of_le hz
  have hzero : ∀ k < z, s.bufByte (a + k) = 0#8 := fun k hk => by
    rw [State.bufByte, hzeros k hk, Option.getD_some]
  have hnonzero : 0 < m → s.bufByte (a + z) ≠ 0#8 := fun hm h0 =>
    hfirst (by omega) (by rw [read_eq_bufByte (hw z (by omega)), h0])
  have hval : s.memRead a (z + m) = readBE s.bufByte (a + z) m := readBE_leading_zeros m hzero
  obtain ⟨t, ht, hterr, htidle, htpar, htarg, htbuf, htx, htw⟩ := afterCommand_b2i hidle hr ha hregs hn hfit hw hv
  obtain ⟨u, hu, huerr, hureslen, hubuf⟩ := afterCommand_i2bmin (a := a) (n := m) htidle (by rwa [htpar])
    (by rwa [htarg]) htw (by rwa [htpar]) (by rw [htx, hval, minlen_readBE hnonzero]) (by rw [htpar]; omega)
  rw [Nat.add_sub_cancel_left]
  refine ⟨t, u, ht, hterr, hu, huerr, hureslen, fun k hk => ?_, fun b hb => ?_⟩
  · rw [hubuf, htx, hval, read_writeBE, if_pos (by omega), Nat.add_sub_cancel_left, byteBE_readBE _ _ hk, add_assoc,
      read_eq_bufByte (hw (z + k) (by omega))]
  · rw [hubuf, htbuf, read_writeBE, if_neg (by omega)]

end Sys2Proof.Machine
end

section
/-! PROOFS. The statements about ADD and SUB (41_adder.md): R151 to R153. -/

namespace Sys2Proof.Machine

open Sys2Proof.Laws

/-- A command that completes with one register and C written has changed nothing else but the status (R12, R14, R31). -/
theorem setX_setC_complete_frame {s : State} {rd : RegIdx} (v : Nat) (b : Bool) (h : rd.toNat < s.regs.length) :
    let t := ((s.setX rd v).setC b).complete
    t.x rd = v ∧ t.writtenB rd = true ∧ completed s t ∧ regsKeptBut [rd] s t ∧ bufKept s t ∧ t.c = b ∧
      t.reslen = s.reslen ∧ hostSideKept s t ∧ t.fault = s.fault :=
  setX_complete_frame (s := s.setC b) v h

/-- Settles O15: the rule of ADD, its flag being the quotient by `2^W` since both sources are below it. -/
theorem addGivesSumAndCarry : Obligations.AddGivesSumAndCarry := by
  intro s rd rs1 rs2 hinv hwf hsrc
  obtain ⟨-, ⟨hregs, hval⟩, -⟩ := hinv
  have hrd : rd.toNat < s.regs.length := hregs ▸ hwf rd List.mem_cons_self
  refine ⟨fun w => ?_, _, exec_of_wf hwf hsrc, ?_⟩
  · simp [decode_eq_ok_iff_toNat, encode, packWord_toNat]
  · obtain ⟨hx, hwritten, hcompleted, hothers, hbuf, hc, hkept⟩ := setX_setC_complete_frame
      ((s.x rs1 + s.x rs2) % s.bound) (carryOut s.par.w (s.x rs1) (s.x rs2)) hrd
    have hcarry := carryOut_toNat (x_lt hval rs1) (x_lt hval rs2)
    exact ⟨hx, (congrArg Bool.toNat hc).trans hcarry, hwritten, hcompleted, hothers, hbuf, hkept⟩

/-- Settles O16: the result and the carry of ADD are remainder and quotient of one sum, which is symmetric. -/
theorem addIsExactAndSymmetric : Obligations.AddIsExactAndSymmetric := by
  intro s rd rs1 rs2 hinv hwf hsrc
  have hwf' : (Instr.add rd rs2 rs1).wf s.par.nreg := fun r hr =>
    hwf r (((List.Perm.swap rs1 rs2 []).cons rd).mem_iff.mp hr)
  have hsrc' : sourcesWritten (.add rd rs2 rs1) s := fun r hr => hsrc r ((List.Perm.swap rs1 rs2 []).mem_iff.mp hr)
  obtain ⟨-, t, ht, htx, htc, -⟩ := addGivesSumAndCarry s rd rs1 rs2 hinv hwf hsrc
  obtain ⟨-, u, hu, hux, huc, -⟩ := addGivesSumAndCarry s rd rs2 rs1 hinv hwf' hsrc'
  rw [add_comm] at hux huc
  have hc : u.c = t.c := Function.LeftInverse.injective Bool.ofNat_toNat (huc.trans htc.symm)
  refine ⟨t, u, ht, hu, ?_, hux.trans htx.symm, hc⟩
  rw [htx, htc, Nat.mod_add_div']

/-- Settles O17: the rule of SUB in its two cases, without and with a borrow. -/
theorem subGivesDifferenceAndBorrow : Obligations.SubGivesDifferenceAndBorrow := by
  intro s rd rs1 rs2 hinv hwf hsrc
  obtain ⟨-, ⟨hregs, -⟩, -⟩ := hinv
  have hrd : rd.toNat < s.regs.length := hregs ▸ hwf rd List.mem_cons_self
  refine ⟨fun w => ?_, _, exec_of_wf hwf hsrc, ?_⟩
  · simp [decode_eq_ok_iff_toNat, encode, packWord_toNat]
  · obtain ⟨hx, hwritten, hcompleted, hothers, hbuf, hc, hkept⟩ := setX_setC_complete_frame
      (if s.x rs2 ≤ s.x rs1 then s.x rs1 - s.x rs2 else s.x rs1 + s.bound - s.x rs2)
      (borrowOut (s.x rs1) (s.x rs2)) hrd
    refine ⟨fun hle => ⟨?_, ?_⟩, fun hlt => ⟨?_, ?_⟩, hwritten, hcompleted, hothers, hbuf, hkept⟩
    · exact hx.trans (if_pos hle)
    · exact hc.trans (decide_eq_false (not_lt.mpr hle))
    · exact hx.trans (if_neg (not_le.mpr hlt))
    · exact hc.trans (decide_eq_true hlt)

end Sys2Proof.Machine
end

section
/-! PROOFS. The statements about MULLO and MULHI (42_multiplier.md): R171 to R173. -/

namespace Sys2Proof.Machine

open Sys2Proof.Laws

/-- Settles O19: the rule of MULLO, `bound` being `2^W`. -/
theorem mulloGivesTheLowHalf : Obligations.MulloGivesTheLowHalf := by
  intro s rd rs1 rs2 hinv hwf hsrc
  obtain ⟨-, ⟨hregs, -⟩, -⟩ := hinv
  have hrd : rd.toNat < s.regs.length := hregs ▸ hwf rd List.mem_cons_self
  refine ⟨fun w => ?_, _, exec_of_wf hwf hsrc, setX_complete_frame (s.x rs1 * s.x rs2 % s.bound) hrd⟩
  simp [decode_eq_ok_iff_toNat, encode, packWord_toNat]

/-- The high half of a product fits the register, each factor being below `2^W` (R12, R173). -/
theorem x_mul_x_div_lt {s : State} (hval : ∀ r ∈ s.regs, r.val < 2 ^ s.par.w) (i j : RegIdx) :
    s.x i * s.x j / 2 ^ s.par.w < 2 ^ s.par.w :=
  Nat.div_lt_of_lt_mul (Nat.mul_lt_mul'' (x_lt hval i) (x_lt hval j))

/-- Settles O20: the rule of MULHI, `bound` being `2^W`. -/
theorem mulhiGivesTheHighHalf : Obligations.MulhiGivesTheHighHalf := by
  intro s rd rs1 rs2 hinv hwf hsrc
  obtain ⟨-, ⟨hregs, hval⟩, -⟩ := hinv
  have hrd : rd.toNat < s.regs.length := hregs ▸ hwf rd List.mem_cons_self
  refine ⟨fun w => ?_, _, exec_of_wf hwf hsrc, ?_⟩
  · simp [decode_eq_ok_iff_toNat, encode, packWord_toNat]
  · obtain ⟨hx, hframe⟩ := setX_complete_frame (s.x rs1 * s.x rs2 / s.bound) hrd
    exact ⟨hx, hx.trans_lt (x_mul_x_div_lt hval rs1 rs2), hframe⟩

/-- Two factors of half the width have a product that fits the width, odd widths included (R172). -/
theorem mul_lt_two_pow_of_half {a b w : Nat} (ha : a < 2 ^ (w / 2)) (hb : b < 2 ^ (w / 2)) : a * b < 2 ^ w :=
  calc a * b < 2 ^ (w / 2) * 2 ^ (w / 2) := Nat.mul_lt_mul'' ha hb
    _ = 2 ^ (w / 2 + w / 2) := (pow_add 2 _ _).symm
    _ ≤ 2 ^ w := Nat.pow_le_pow_right two_pos (by omega)

/-- Settles O21: the two results are quotient and remainder of one product by `2^W`. -/
theorem productHalvesAreExact : Obligations.ProductHalvesAreExact := by
  intro s rd rs1 rs2 hinv hwf hsrc
  obtain ⟨-, t, ht, htx, -⟩ := mulloGivesTheLowHalf s rd rs1 rs2 hinv hwf hsrc
  obtain ⟨-, u, hu, hux, -⟩ := mulhiGivesTheHighHalf s rd rs1 rs2 hinv hwf hsrc
  refine ⟨t, u, ht, hu, ?_, fun ha hb => ?_⟩
  · rw [hux, htx, Nat.div_add_mod']
  · have hfits := mul_lt_two_pow_of_half ha hb
    exact ⟨hux.trans (Nat.div_eq_of_lt hfits), htx.trans (Nat.mod_eq_of_lt hfits)⟩

end Sys2Proof.Machine
end

section
/-! PROOFS. The statements about the Montgomery product (43_montgomery.md): R190, R192 and R193; first the value of the loop
of R211, with which the model computes `Rinv`. -/

namespace Sys2Proof.Machine

open Sys2Proof.Laws

/-! ### The loop of R211 -/

theorem modexpLoop_lt (e : Nat) {n acc : Nat} (count i base : Nat) (hacc : acc < n) :
    modexpLoop e n count i acc base < n := by
  induction count generalizing i acc base with
  | zero => exact hacc
  | succ count ih =>
    have hpos : 0 < n := acc.zero_le.trans_lt hacc
    rw [modexpLoop]
    split
    · exact ih _ _ (Nat.mod_lt _ hpos)
    · exact ih _ _ hacc

/-- With `q` the bits of the exponent still to come, and `count` enough of them, the loop multiplies the accumulator by
`base^q`: `base^q` is `base^(q mod 2)` times the `(q div 2)`-th power of the squared base (R211). -/
theorem modexpLoop_modEq {e n i count : Nat} (acc base : Nat) (hcount : e / 2 ^ i < 2 ^ count) :
    modexpLoop e n count i acc base ≡ acc * base ^ (e / 2 ^ i) [MOD n] := by
  induction count generalizing i acc base with
  | zero =>
    have hq : e / 2 ^ i = 0 := Nat.lt_one_iff.mp hcount
    rw [modexpLoop, hq, pow_zero, mul_one]
  | succ count ih =>
    have hhalf : e / 2 ^ (i + 1) = e / 2 ^ i / 2 := by rw [pow_succ, Nat.div_div_eq_div_mul]
    have hacc : (if bitAt e i = 1 then acc * base % n else acc) ≡ acc * base ^ (e / 2 ^ i % 2) [MOD n] := by
      rw [bitAt]
      rcases Nat.mod_two_eq_zero_or_one (e / 2 ^ i) with hbit | hbit <;> simp [hbit, Nat.ModEq]
    calc modexpLoop e n (count + 1) i acc base
      _ ≡ (if bitAt e i = 1 then acc * base % n else acc) * (base * base % n) ^ (e / 2 ^ i / 2) [MOD n] :=
        hhalf ▸ ih _ _ (by rw [hhalf]; omega)
      _ ≡ acc * base ^ (e / 2 ^ i % 2) * (base * base) ^ (e / 2 ^ i / 2) [MOD n] :=
        hacc.mul ((Nat.mod_modEq _ n).pow _)
      _ = acc * base ^ (e / 2 ^ i) := by rw [← pow_two, ← pow_mul, mul_assoc, ← pow_add, Nat.mod_add_div]

/-- The engine's exponentiation is the power modulo `n` (R211). -/
theorem modexp_eq_pow_mod (b e : Nat) {n : Nat} (hn : 0 < n) : modexp b e n = b ^ e % n := by
  have hbits : e / 2 ^ 0 < 2 ^ bitlen e := by
    rw [pow_zero, Nat.div_one]
    exact bitlen_le_iff.mp le_rfl
  have hpow : modexp b e n ≡ b ^ e [MOD n] :=
    calc modexp b e n
      _ ≡ 1 % n * (b % n) ^ (e / 2 ^ 0) [MOD n] := modexpLoop_modEq _ _ hbits
      _ ≡ 1 * b ^ (e / 2 ^ 0) [MOD n] := (Nat.mod_modEq 1 n).mul ((Nat.mod_modEq b n).pow _)
      _ = b ^ e := by rw [one_mul, pow_zero, Nat.div_one]
  have hlt : modexp b e n < n := modexpLoop_lt e _ _ _ (Nat.mod_lt 1 hn)
  exact (Nat.mod_eq_of_lt hlt).symm.trans hpow

/-! ### The inverse of the radix -/

section Odd

variable {n : Nat} (hodd : n % 2 = 1)

include hodd

theorem montRinv_eq_pow_mod (w : Nat) : montRinv w n = ((n + 1) / 2) ^ w % n :=
  modexp_eq_pow_mod _ _ (by omega)

theorem montRinv_lt (w : Nat) : montRinv w n < n := by
  rw [montRinv_eq_pow_mod hodd]
  exact Nat.mod_lt _ (by omega)

/-- `(n+1)/2` is the inverse of 2, so its `w`-th power is the inverse of the radix (R190; log entry 13). -/
theorem two_pow_mul_montRinv (w : Nat) : 2 ^ w * montRinv w n ≡ 1 [MOD n] := by
  have htwo : 2 * ((n + 1) / 2) = n + 1 := by omega
  calc 2 ^ w * montRinv w n
    _ ≡ 2 ^ w * ((n + 1) / 2) ^ w [MOD n] := by
      rw [montRinv_eq_pow_mod hodd]
      exact (Nat.mod_modEq _ n).mul_left _
    _ = (n + 1) ^ w := by rw [← mul_pow, htwo]
    _ ≡ 1 ^ w [MOD n] := Nat.ModEq.pow w Nat.add_modEq_left
    _ = 1 := one_pow w

/-- The radix is coprime to an odd modulus, so it has at most one inverse below it (R190). -/
theorem eq_montRinv {w r : Nat} (hr : r < n) (hinverse : 2 ^ w * r ≡ 1 [MOD n]) : r = montRinv w n := by
  have hcoprime : n.Coprime (2 ^ w) := (Nat.coprime_two_right.mpr (Nat.odd_iff.mpr hodd)).pow_right w
  have hsame : 2 ^ w * r ≡ 2 ^ w * montRinv w n [MOD n] := hinverse.trans (two_pow_mul_montRinv hodd w).symm
  exact (hsame.cancel_left_of_coprime hcoprime).eq_of_lt_of_lt hr (montRinv_lt hodd w)

/-- The Montgomery product of a value in the domain is the plain product with that value's residue (R191, R193). -/
theorem mont_of_radix_mul (w a b : Nat) : mont w (a * 2 ^ w % n) b n = a * b % n := by
  change a * 2 ^ w % n * b * montRinv w n ≡ a * b [MOD n]
  calc a * 2 ^ w % n * b * montRinv w n
    _ ≡ a * 2 ^ w * b * montRinv w n [MOD n] := ((Nat.mod_modEq _ n).mul_right b).mul_right _
    _ = a * b * (2 ^ w * montRinv w n) := by ring
    _ ≡ a * b * 1 [MOD n] := (two_pow_mul_montRinv hodd w).mul_left _
    _ = a * b := mul_one _

end Odd

theorem mont_comm (w a b n : Nat) : mont w a b n = mont w b a n := by rw [mont, mul_comm a b, mont]

/-- A multiple of 2 is not congruent to 1 modulo an even modulus, so the radix has no inverse (R190). -/
theorem two_pow_mul_mod_ne_one_mod {w n r : Nat} (hw : 1 ≤ w) (heven : n % 2 = 0) :
    2 ^ w * r % n ≠ 1 % n := by
  intro h
  have htwo : 2 ∣ 2 ^ w * r := (dvd_pow_self 2 (by omega)).mul_right r
  have hbit : 2 ^ w * r ≡ 1 [MOD 2] := Nat.ModEq.of_dvd (Nat.dvd_of_mod_eq_zero heven) h
  exact absurd ((Nat.mod_eq_zero_of_dvd htwo).symm.trans hbit) (by decide)

/-- Settles O22: the power of `(n+1)/2` is the inverse, and the radix is coprime to an odd modulus. -/
theorem montgomeryInverseOfTheRadix : Obligations.MontgomeryInverseOfTheRadix := by
  intro w n hw
  refine ⟨fun hodd => ⟨montRinv_lt hodd w, two_pow_mul_montRinv hodd w, fun r hr h => eq_montRinv hodd hr h, ?_⟩,
    fun heven r _ => two_pow_mul_mod_ne_one_mod hw heven⟩
  rintro rfl
  exact Nat.lt_one_iff.mp (montRinv_lt hodd w)

/-- Settles O24: each law multiplies by one residue of the radix or two, and a product in the domain takes one out. -/
theorem montgomeryDomainLaws : Obligations.MontgomeryDomainLaws := by
  intro w n a b hodd ha _
  refine ⟨?_, ?_, ?_, mont_comm w a b n⟩
  · rw [mont_of_radix_mul hodd, Nat.mul_mod_mod, mul_assoc]
  · rw [mont_comm, pow_two, mont_of_radix_mul hodd, mul_comm]
  · rw [mont_of_radix_mul hodd, mul_one, Nat.mod_eq_of_lt ha]

/-! ### MONTMUL -/

section Rule

variable {s : State} {rd rs1 rs2 rs3 : RegIdx}

theorem ruleOf_montmul_even (h : s.x rs3 % 2 = 0) : ruleOf (.montmul rd rs1 rs2 rs3) s = s.raise .modulusEven :=
  if_pos h

theorem ruleOf_montmul_notReduced (hodd : s.x rs3 % 2 = 1) (h : s.x rs3 ≤ s.x rs1 ∨ s.x rs3 ≤ s.x rs2) :
    ruleOf (.montmul rd rs1 rs2 rs3) s = s.raise .operandNotReduced :=
  (if_neg (by omega)).trans (if_pos h)

theorem ruleOf_montmul_product (hodd : s.x rs3 % 2 = 1) (h1 : s.x rs1 < s.x rs3) (h2 : s.x rs2 < s.x rs3) :
    ruleOf (.montmul rd rs1 rs2 rs3) s = (s.setX rd (mont s.par.w (s.x rs1) (s.x rs2) (s.x rs3))).complete :=
  (if_neg (by omega)).trans (if_neg (by omega))

end Rule

/-- Settles O23: the rule of MONTMUL in its three cases, the inverse being the model's. -/
theorem montmulGivesTheMontgomeryProduct : Obligations.MontmulGivesTheMontgomeryProduct := by
  intro s rd rs1 rs2 rs3 hinv hwf hsrc
  obtain ⟨-, ⟨hregs, -⟩, -⟩ := hinv
  have hrd : rd.toNat < s.regs.length := hregs ▸ hwf rd List.mem_cons_self
  have hexec := exec_of_wf hwf hsrc
  refine ⟨fun w => ?_, fun heven => ?_, fun hodd hbig => ?_, fun hodd h1 h2 => ?_⟩
  · simp [decode_eq_ok_iff_toNat, encode, packWord_toNat]
  · rw [ruleOf_montmul_even heven] at hexec
    exact ⟨_, hexec, raised_raise s .modulusEven⟩
  · rw [ruleOf_montmul_notReduced hodd hbig] at hexec
    exact ⟨_, hexec, raised_raise s .operandNotReduced⟩
  · rw [ruleOf_montmul_product hodd h1 h2] at hexec
    obtain ⟨hx, hframe⟩ := setX_complete_frame (mont s.par.w (s.x rs1) (s.x rs2) (s.x rs3)) hrd
    exact ⟨_, hexec, ⟨_, montRinv_lt hodd s.par.w, two_pow_mul_montRinv hodd s.par.w, hx⟩, hframe⟩

end Sys2Proof.Machine
end

section
/-! PROOFS. Commands issued one after another to an idle block, and how the host obtains the residues of the radix with them
(43_montgomery.md): R194. -/

namespace Sys2Proof.Machine

/-- From `s` to `t` an issued command has written `v` to `B<rd>` and no other register, without an error, and the block is
ready for the next command: idle, its parameters as before, with all its registers. -/
abbrev issuedWrote (rd : RegIdx) (v : Nat) (s t : State) : Prop :=
  t.x rd = v ∧ t.writtenB rd = true ∧ regsKeptBut [rd] s t ∧ t.err = false ∧ t.busy = false ∧
    t.regs.length = t.par.nreg ∧ t.par = s.par

section Issued

variable {s : State} (hidle : s.busy = false) (hregs : s.regs.length = s.par.nreg)

include hidle hregs

/-- A command issued to an idle block whose rule writes one register and C. A rule that leaves C alone writes the C it
found. -/
theorem afterCommand_of_setX {i : Instr} {rd : RegIdx} {v : Nat} {c : Bool} (hwf : i.wf s.par.nreg)
    (hsrc : sourcesWritten i s) (hrd : rd ∈ i.usedRegs)
    (hrule : ruleOf i (s.accept (encode i)) = (((s.accept (encode i)).setX rd v).setC c).complete) :
    ∃ t, afterCommand i s = .next t ∧ issuedWrote rd v s t ∧ t.c = c := by
  have hexec : exec i (s.accept (encode i)) = .next (ruleOf i (s.accept (encode i))) := exec_of_wf hwf hsrc
  rw [← afterCommand_of_idle i hidle, hrule] at hexec
  have hin : rd.toNat < s.regs.length := hregs ▸ hwf rd hrd
  obtain ⟨hx, hwritten, ⟨-, herr, -⟩, hothers, -, hc, -⟩ :=
    setX_setC_complete_frame (s := s.accept (encode i)) v c hin
  exact ⟨_, hexec, ⟨hx, hwritten, hothers, herr, rfl, List.length_set.trans hregs, rfl⟩, hc⟩

/-- B2I of no bytes, from address 0, writes 0: the last command of `zero` (R101, R121). -/
theorem afterCommand_b2i_zero {rd : RegIdx} (hr : rd.toNat < s.par.nreg) (harg : s.arg = 0#32) :
    ∃ t, afterCommand (.b2i rd) s = .next t ∧ issuedWrote rd 0 s t := by
  obtain ⟨haddr, hlen⟩ := accept_arg_fields s (encode (.b2i rd))
  rw [harg] at haddr hlen
  have hrule : ruleOf (.b2i rd) (s.accept (encode (.b2i rd))) = ((s.accept (encode (.b2i rd))).setX rd 0).complete :=
    ruleOf_b2i_value haddr hlen (Nat.zero_le _) (fun k hk => absurd hk k.not_lt_zero) (Nat.two_pow_pos _)
  have hwf : (Instr.b2i rd).wf s.par.nreg := List.forall_mem_singleton.mpr hr
  obtain ⟨t, ht, hwrote, -⟩ := afterCommand_of_setX (c := s.c) hidle hregs hwf nofun List.mem_cons_self hrule
  exact ⟨t, ht, hwrote⟩

/-- SUB of a larger number adds `2^W` and sets C (R153). -/
theorem afterCommand_sub_borrow {rd rs1 rs2 : RegIdx} (hwf : (Instr.sub rd rs1 rs2).wf s.par.nreg)
    (hsrc : sourcesWritten (.sub rd rs1 rs2) s) (hlt : s.x rs1 < s.x rs2) :
    ∃ t, afterCommand (.sub rd rs1 rs2) s = .next t ∧
      issuedWrote rd (s.x rs1 + 2 ^ s.par.w - s.x rs2) s t ∧ t.c = true := by
  have hvalue : (if s.x rs2 ≤ s.x rs1 then s.x rs1 - s.x rs2 else s.x rs1 + s.bound - s.x rs2) =
    s.x rs1 + 2 ^ s.par.w - s.x rs2 := if_neg (not_le.mpr hlt)
  have hborrow : borrowOut (s.x rs1) (s.x rs2) = true := decide_eq_true hlt
  rw [← hvalue, ← hborrow]
  exact afterCommand_of_setX hidle hregs hwf hsrc List.mem_cons_self rfl

/-- MODEXP by a modulus that is not 0 (R212). -/
theorem afterCommand_modexp {rd rs1 rs2 rs3 : RegIdx} (hwf : (Instr.modexp rd rs1 rs2 rs3).wf s.par.nreg)
    (hsrc : sourcesWritten (.modexp rd rs1 rs2 rs3) s) (hn : 0 < s.x rs3) :
    ∃ t, afterCommand (.modexp rd rs1 rs2 rs3) s = .next t ∧ issuedWrote rd (s.x rs1 ^ s.x rs2 % s.x rs3) s t := by
  rw [← modexp_eq_pow_mod _ _ hn]
  obtain ⟨t, ht, hwrote, -⟩ :=
    afterCommand_of_setX (c := s.c) hidle hregs hwf hsrc List.mem_cons_self (if_neg hn.ne')
  exact ⟨t, ht, hwrote⟩

end Issued

/-- Settles O25: the three commands one after another, each leaving the modulus and the exponent as they were, and `2^W - n`
being congruent to the radix. -/
theorem hostObtainsTheRadixResidues : Obligations.HostObtainsTheRadixResidues := by
  intro s bt bz bn be br k hinv hidle harg hin hbtn hbte hbzn hbze hnw hew hn _ hek
  obtain ⟨-, ⟨hregs, hval⟩, -⟩ := hinv
  simp only [List.forall_mem_cons] at hin
  obtain ⟨hbt, hbz, hbn, hbe, hbr, -⟩ := hin
  obtain ⟨r, hr, hrz, hrzw, hrkept, hrerr, hridle, hrregs, hrpar⟩ := afterCommand_b2i_zero hidle hregs hbz harg
  obtain ⟨hrn, hrnw⟩ := hrkept bn (List.mem_singleton.not.mpr hbzn.symm)
  obtain ⟨hre, hrew⟩ := hrkept be (List.mem_singleton.not.mpr hbze.symm)
  have hsub : (Instr.sub bt bz bn).wf r.par.nreg := by simp [Instr.wf, Instr.usedRegs, hrpar, hbt, hbz, hbn]
  have hsubw : sourcesWritten (.sub bt bz bn) r := by simp [sourcesWritten, Instr.sources, hrzw, hrnw, hnw]
  obtain ⟨t, ht, ⟨htt, httw, htkept, hterr, htidle, htregs, htpar⟩, htc⟩ :=
    afterCommand_sub_borrow hridle hrregs hsub hsubw (by rw [hrz, hrn]; omega)
  rw [hrz, hrn, hrpar, zero_add] at htt
  obtain ⟨htn, htnw⟩ := htkept bn (List.mem_singleton.not.mpr hbtn.symm)
  obtain ⟨hte, htew⟩ := htkept be (List.mem_singleton.not.mpr hbte.symm)
  rw [hrn] at htn
  rw [hre, hek] at hte
  have hexp : (Instr.modexp br bt be bn).wf t.par.nreg := by
    simp [Instr.wf, Instr.usedRegs, htpar, hrpar, hbr, hbt, hbe, hbn]
  have hexpw : sourcesWritten (.modexp br bt be bn) t := by
    simp [sourcesWritten, Instr.sources, httw, htew, hrew, hew, htnw, hrnw, hnw]
  obtain ⟨u, hu, hur, -, -, huerr, -⟩ := afterCommand_modexp htidle htregs hexp hexpw (by rw [htn]; omega)
  rw [htt, htn, hte] at hur
  have hresidue : 2 ^ s.par.w - s.x bn ≡ 2 ^ s.par.w [MOD s.x bn] := (Nat.mod_eq_sub_mod (x_lt hval bn).le).symm
  exact ⟨r, t, u, hr, hrz, hrerr, ht, htt, htc, hterr, hu, hur.trans (hresidue.pow k), huerr⟩

end Sys2Proof.Machine
end

section
/-! PROOFS. The statements about MODEXP and MODEXPC (44_modexp.md): R211, R212 and R214, and with
them RSA on the block: R217. -/

namespace Sys2Proof.Machine

open Sys2Proof.Laws

/-- Settles O26: the value of the loop, and its bound from the accumulator's. -/
theorem modexpIsThePowerModN : Obligations.ModexpIsThePowerModN := fun b e _ hn =>
  ⟨modexp_eq_pow_mod b e hn, modexpLoop_lt e _ _ _ (Nat.mod_lt 1 hn)⟩

/-! ### The two rules, case by case -/

section Rule

variable {s : State} {rd rs1 rs2 rs3 : RegIdx}

theorem ruleOf_modexp_modulusZero (h : s.x rs3 = 0) : ruleOf (.modexp rd rs1 rs2 rs3) s = s.raise .modulusZero :=
  if_pos h

theorem ruleOf_modexp_power (h : 0 < s.x rs3) :
    ruleOf (.modexp rd rs1 rs2 rs3) s = (s.setX rd (s.x rs1 ^ s.x rs2 % s.x rs3)).complete := by
  rw [← modexp_eq_pow_mod _ _ h]
  exact if_neg h.ne'

theorem ruleOf_modexpc_tooLarge (h : s.x rs3 ≤ s.x rs1) :
    ruleOf (.modexpc rd rs1 rs2 rs3) s = s.raise .plaintextTooLarge :=
  if_pos h

/-- A plaintext below the modulus leaves no zero modulus to check for (R214). -/
theorem ruleOf_modexpc_power (h : s.x rs1 < s.x rs3) :
    ruleOf (.modexpc rd rs1 rs2 rs3) s = (s.setX rd (s.x rs1 ^ s.x rs2 % s.x rs3)).complete := by
  rw [← modexp_eq_pow_mod _ _ ((s.x rs1).zero_le.trans_lt h)]
  exact if_neg (not_le.mpr h)

end Rule

/-- Settles O27: the rule of MODEXP in its two cases. -/
theorem modexpGivesThePower : Obligations.ModexpGivesThePower := by
  intro s rd rs1 rs2 rs3 hinv hwf hsrc
  obtain ⟨-, ⟨hregs, -⟩, -⟩ := hinv
  have hrd : rd.toNat < s.regs.length := hregs ▸ hwf rd List.mem_cons_self
  have hexec := exec_of_wf hwf hsrc
  refine ⟨fun w => ?_, fun hzero => ?_, fun hpos => ?_⟩
  · simp [decode_eq_ok_iff_toNat, encode, packWord_toNat]
  · rw [ruleOf_modexp_modulusZero hzero] at hexec
    exact ⟨_, hexec, raised_raise s .modulusZero⟩
  · rw [ruleOf_modexp_power hpos] at hexec
    exact ⟨_, hexec, setX_complete_frame (s.x rs1 ^ s.x rs2 % s.x rs3) hrd⟩

/-- Settles O28: the rule of MODEXPC in its two cases. -/
theorem modexpcChecksThePlaintext : Obligations.ModexpcChecksThePlaintext := by
  intro s rd rs1 rs2 rs3 hinv hwf hsrc
  obtain ⟨-, ⟨hregs, -⟩, -⟩ := hinv
  have hrd : rd.toNat < s.regs.length := hregs ▸ hwf rd List.mem_cons_self
  have hexec := exec_of_wf hwf hsrc
  refine ⟨fun w => ?_, fun hbig => ?_, fun hlt => ?_⟩
  · simp [decode_eq_ok_iff_toNat, encode, packWord_toNat]
  · rw [ruleOf_modexpc_tooLarge hbig] at hexec
    exact ⟨_, hexec, raised_raise s .plaintextTooLarge⟩
  · rw [ruleOf_modexpc_power hlt] at hexec
    exact ⟨_, hexec, setX_complete_frame (s.x rs1 ^ s.x rs2 % s.x rs3) hrd⟩

/-! ### RSA

The law rests on Fermat's little theorem modulo each of the two primes. It holds for every residue, the multiples of a prime
included, because the exponent is not 0. -/

theorem pow_modEq_self_of_prime {p k : Nat} (hp : p.Prime) (hk : 0 < k) (h : k ≡ 1 [MOD p - 1]) (m : Nat) :
    m ^ k ≡ m [MOD p] := by
  have hdvd : p - 1 ∣ k - 1 := (Nat.modEq_iff_dvd' hk).mp h.symm
  have hfermat := Int.ModEq.pow_eq_pow hp hdvd hk one_pos m
  rw [pow_one] at hfermat
  exact_mod_cast hfermat

/-- Of two distinct primes one is above 2, so the lcm of their predecessors is above 1. -/
theorem one_lt_lcm_pred {p q : Nat} (hp : p.Prime) (hq : q.Prime) (hne : p ≠ q) : 1 < Nat.lcm (p - 1) (q - 1) := by
  have hp2 := hp.two_le
  have hq2 := hq.two_le
  have hpos : 0 < Nat.lcm (p - 1) (q - 1) := Nat.lcm_pos (by omega) (by omega)
  have hple := Nat.le_of_dvd hpos (Nat.dvd_lcm_left (p - 1) (q - 1))
  have hqle := Nat.le_of_dvd hpos (Nat.dvd_lcm_right (p - 1) (q - 1))
  omega

/-- Raising to an exponent that is 1 modulo `lcm(p-1, q-1)` gives the residue back, modulo `p * q` (R217). -/
theorem pow_modEq_self_of_lcm {p q k : Nat} (hp : p.Prime) (hq : q.Prime) (hne : p ≠ q)
    (h : k ≡ 1 [MOD Nat.lcm (p - 1) (q - 1)]) (m : Nat) : m ^ k ≡ m [MOD p * q] := by
  have hk : 0 < k := by
    rcases k.eq_zero_or_pos with rfl | hpos
    · simp [Nat.ModEq, Nat.mod_eq_of_lt (one_lt_lcm_pred hp hq hne)] at h
    · exact hpos
  refine (Nat.modEq_and_modEq_iff_modEq_mul ((Nat.coprime_primes hp hq).mpr hne)).mp ⟨?_, ?_⟩
  · exact pow_modEq_self_of_prime hp hk (h.of_dvd (Nat.dvd_lcm_left _ _)) m
  · exact pow_modEq_self_of_prime hq hk (h.of_dvd (Nat.dvd_lcm_right _ _)) m

/-- RSA on numbers: the `d`-th power of the `e`-th power is the message (R217). -/
theorem rsa_roundTrip {p q e d m : Nat} (hp : p.Prime) (hq : q.Prime) (hne : p ≠ q)
    (hed : e * d ≡ 1 [MOD Nat.lcm (p - 1) (q - 1)]) (hm : m < p * q) : (m ^ e % (p * q)) ^ d % (p * q) = m := by
  have hback : (m ^ e % (p * q)) ^ d ≡ m [MOD p * q] :=
    calc (m ^ e % (p * q)) ^ d
      _ ≡ (m ^ e) ^ d [MOD p * q] := (Nat.mod_modEq _ _).pow d
      _ = m ^ (e * d) := (pow_mul m e d).symm
      _ ≡ m [MOD p * q] := pow_modEq_self_of_lcm hp hq hne hed m
  exact Nat.mod_eq_of_modEq hback hm

/-- MODEXPC of a plaintext below the modulus, issued to an idle block (R214). -/
theorem afterCommand_modexpc {s : State} {rd rs1 rs2 rs3 : RegIdx} (hidle : s.busy = false)
    (hregs : s.regs.length = s.par.nreg) (hwf : (Instr.modexpc rd rs1 rs2 rs3).wf s.par.nreg)
    (hsrc : sourcesWritten (.modexpc rd rs1 rs2 rs3) s) (hlt : s.x rs1 < s.x rs3) :
    ∃ t, afterCommand (.modexpc rd rs1 rs2 rs3) s = .next t ∧ issuedWrote rd (s.x rs1 ^ s.x rs2 % s.x rs3) s t := by
  obtain ⟨t, ht, hwrote, -⟩ :=
    afterCommand_of_setX (c := s.c) hidle hregs hwf hsrc List.mem_cons_self (ruleOf_modexpc_power hlt)
  exact ⟨t, ht, hwrote⟩

/-- Settles O29: the two commands one after another, the first leaving `d` and `n` as they were. -/
theorem rsaDecryptsWhatItEncrypts : Obligations.RsaDecryptsWhatItEncrypts := by
  intro s rc rx rm re rd rn p q e d m hinv hidle hin hcd hcn hp hq hne _ _ hed hm hxm hxe hxd hxn hwritten
  obtain ⟨-, ⟨hregs, -⟩, -⟩ := hinv
  simp only [List.forall_mem_cons] at hin hwritten
  obtain ⟨hrc, hrx, hrm, hre, hrd, hrn, -⟩ := hin
  obtain ⟨hmw, hew, hdw, hnw, -⟩ := hwritten
  have henc : (Instr.modexpc rc rm re rn).wf s.par.nreg := by simp [Instr.wf, Instr.usedRegs, hrc, hrm, hre, hrn]
  have hencw : sourcesWritten (.modexpc rc rm re rn) s := by simp [sourcesWritten, Instr.sources, hmw, hew, hnw]
  obtain ⟨t, ht, htc, htcw, hkept, hterr, htidle, htregs, htpar⟩ :=
    afterCommand_modexpc hidle hregs henc hencw (by rwa [hxm, hxn])
  obtain ⟨htd, htdw⟩ := hkept rd (List.mem_singleton.not.mpr hcd.symm)
  obtain ⟨htn, htnw⟩ := hkept rn (List.mem_singleton.not.mpr hcn.symm)
  rw [hxm, hxe, hxn] at htc
  rw [hxd] at htd
  rw [hxn] at htn
  have hdec : (Instr.modexp rx rc rd rn).wf t.par.nreg := by
    simp [Instr.wf, Instr.usedRegs, htpar, hrx, hrc, hrd, hrn]
  have hdecw : sourcesWritten (.modexp rx rc rd rn) t := by
    simp [sourcesWritten, Instr.sources, htcw, htdw, hdw, htnw, hnw]
  obtain ⟨u, hu, hux, -, -, huerr, -⟩ :=
    afterCommand_modexp htidle htregs hdec hdecw (by rw [htn]; exact m.zero_le.trans_lt hm)
  rw [htc, htd, htn, rsa_roundTrip hp hq hne hed hm] at hux
  exact ⟨t, u, ht, hterr, hu, huerr, hux⟩

end Sys2Proof.Machine
end

section
/-! PROOFS. The statements about the exception entry and the interrupt (60_exceptions.md): R241, R250 and R251. -/

namespace Sys2Proof.Machine

/-! ### The exception entry -/

/-- A command's rule sets ERR only by raising an error (R241). -/
theorem ruleOf_eq_raise_of_err {i : Instr} {s : State} (hs : s.err = false) (ht : (ruleOf i s).err = true) :
    ∃ e, ruleOf i s = s.raise e := by
  rcases ruleOf_cases i s with ⟨e, -, -, k⟩ | ⟨_, -, k⟩ | ⟨_, _, -, -, k⟩ | ⟨_, _, _, -, -, k⟩ | ⟨_, _, _, -, k⟩ |
    ⟨_, _, -, k⟩
  case inl => exact ⟨e, k⟩
  all_goals simp [k, hs] at ht

/-- The engine's turn sets ERR only by raising an error (R241, R242). -/
theorem engineStep_eq_raise_of_err {s t : State} (hs : s.err = false) (h : engineStep s = .next t) (ht : t.err = true) :
    ∃ e, t = s.raise e := by
  rcases engineStep_cases h with ⟨-, rfl⟩ | ⟨_, -, ⟨e, -, rfl⟩ | ⟨i, -, ⟨-, rfl⟩ | ⟨-, -, rfl⟩ | ⟨-, -, rfl⟩⟩⟩
  · simp [hs] at ht
  · exact ⟨e, rfl⟩
  · exact ⟨.regRange, rfl⟩
  · simp [hs] at ht
  · exact ruleOf_eq_raise_of_err hs ht

/-- Settles O30: a turn of the engine that sets ERR is a `raise`, and that writes the status alone. -/
theorem failedCommandHasNoEffectButItsStatus : Obligations.FailedCommandHasNoEffectButItsStatus := by
  have hraise : ∀ (s : State) (e : ErrorCode), raised (errorBits e) s (s.raise e) := fun s e => (raised_raise s e).left
  refine ⟨hraise, fun s t hs h ht => ?_⟩
  obtain ⟨e, rfl⟩ := engineStep_eq_raise_of_err hs h ht
  exact ⟨e, hraise s e⟩

/-! ### Whose step is next -/

theorem hostNext_not_engineNext {s : State} {txn : Txn} (h : hostNext txn s) : ¬ engineNext s :=
  fun hn => engineNext_not_hostNext hn txn h

theorem resetNext_not_engineNext {s : State} (h : resetNext s) : ¬ engineNext s :=
  fun hn => engineNext_not_resetNext hn h

theorem resetNext_not_hostNext {s : State} (h : resetNext s) (txn : Txn) : ¬ hostNext txn s :=
  fun hn => hostNext_not_resetNext hn h

/-! ### The level of `irq` (R250) -/

theorem irq_iff (s : State) : s.irq = true ↔ s.ie = true ∧ s.done = true := by
  rw [State.irq, Bool.and_eq_true]

theorem irq_eq_false_iff (s : State) : s.irq = false ↔ s.ie = false ∨ s.done = false := by
  rw [State.irq, Bool.and_eq_false_iff]

theorem resetStep_irq (p : Option Txn) (s : State) : (resetStep p s).irq = false := rfl

/-! ### `irq` and the engine -/

/-- With a command in flight the engine's turn sets DONE (R27, R241, R290). -/
theorem engineStep_done {s t : State} (hl : s.inflight ≠ none) (h : engineStep s = .next t) : t.done = true := by
  rcases engineStep_cases h with ⟨hnone, -⟩ | ⟨_, -, ⟨e, -, rfl⟩ | ⟨i, -, ⟨-, rfl⟩ | ⟨-, -, rfl⟩ | ⟨-, -, rfl⟩⟩⟩
  · exact absurd hnone hl
  · exact raise_done s e
  · exact raise_done s .regRange
  · exact leaveUncomputed_done s i
  · obtain ⟨-, -, hdone, -⟩ := ruleOf_kept i s
    exact hdone

/-- With a command in flight the engine's turn makes `irq` equal to IE; with none it leaves it (R250, R290). -/
theorem engineStep_irq {s t : State} (h : engineStep s = .next t) :
    t.irq = if s.inflight = none then s.irq else s.ie := by
  by_cases hl : s.inflight = none
  · rcases engineStep_cases h with ⟨-, rfl⟩ | ⟨l, hsome, -⟩
    · rw [if_pos hl]
    · simp [hl] at hsome
  · obtain ⟨⟨-, -, hie, -⟩, -⟩ := engineStep_kept h
    rw [if_neg hl, State.irq, hie, engineStep_done hl h, Bool.and_true]

/-- The engine raises `irq` exactly by ending a command with IE set (R251). -/
theorem engineStep_irq_true_iff {s t : State} (h : engineStep s = .next t) (hq : s.irq = false) :
    t.irq = true ↔ s.inflight ≠ none ∧ s.ie = true := by
  rw [engineStep_irq h]
  by_cases hl : s.inflight = none
  · simp [hl, hq]
  · simp [hl]

/-- The engine does not lower `irq` (R251). -/
theorem engineStep_irq_of_irq {s t : State} (h : engineStep s = .next t) (hq : s.irq = true) : t.irq = true := by
  obtain ⟨hie, -⟩ := (irq_iff s).mp hq
  rw [engineStep_irq h, hq, hie, ite_self]

/-! ### `irq` and the host -/

theorem hostStep_ctrl (d : Word) (s : State) : hostStep (.write 0x0010#16 .four d) s = s.writeCtrl d := rfl

/-- A host transaction changes IE exactly when it is a CTRL write with the other value in bit 0 (R37). -/
theorem hostStep_ie_eq_iff {s : State} {b : Bool} (txn : Txn) (hie : s.ie ≠ b) :
    (hostStep txn s).ie = b ↔ ∃ d : Word, d.getLsbD 0 = b ∧ txn = .write 0x0010#16 .four d := by
  constructor
  · intro h
    rcases hostStep_cases txn s with ⟨_, _, _, _, -, k⟩ | ⟨-, -, -, k⟩ | ⟨_, -, -, k⟩ | ⟨_, -, k⟩ | ⟨_, -, -, k⟩ |
      ⟨d, hw, k⟩ | ⟨_, _, _, -, -, -, -, k⟩ | ⟨-, -, -, k⟩ <;> rw [k] at h
    case inr.inr.inr.inr.inr.inl => exact ⟨d, h, hw⟩
    all_goals exact absurd h hie
  · rintro ⟨d, hbit, rfl⟩
    rw [hostStep_ctrl, writeCtrl_ie, hbit]

/-- No host transaction sets DONE (R26, R27). -/
theorem done_of_hostStep_done {s : State} {txn : Txn} (h : (hostStep txn s).done = true) : s.done = true := by
  rcases hostStep_cases txn s with ⟨_, _, _, _, -, k⟩ | ⟨-, -, -, k⟩ | ⟨w, -, -, k⟩ | ⟨d, -, k⟩ | ⟨_, -, -, k⟩ |
    ⟨_, -, k⟩ | ⟨_, _, _, -, -, -, -, k⟩ | ⟨-, -, -, k⟩ <;> rw [k] at h
  case inr.inr.inl => simp at h
  case inr.inr.inr.inl =>
    rw [writeStatus_done, Bool.and_eq_true] at h
    exact h.left
  all_goals exact h

/-- The host raises `irq` exactly by setting IE while DONE (R251). -/
theorem hostStep_irq_true_iff {s : State} (txn : Txn) (hq : s.irq = false) :
    (hostStep txn s).irq = true ↔
      s.done = true ∧ ∃ d : Word, d.getLsbD 0 = true ∧ txn = .write 0x0010#16 .four d := by
  rw [irq_iff]
  constructor
  · rintro ⟨hie', hdone'⟩
    have hdone : s.done = true := done_of_hostStep_done hdone'
    have hie : s.ie ≠ true := fun hie => by simp [(irq_iff s).mpr ⟨hie, hdone⟩] at hq
    exact ⟨hdone, (hostStep_ie_eq_iff txn hie).mp hie'⟩
  · rintro ⟨hdone, d, hbit, rfl⟩
    exact ⟨hbit, hdone⟩

/-- The host lowers `irq` exactly by clearing DONE, by an acceptance, or by clearing IE (R251). -/
theorem hostStep_irq_false_iff {s : State} (txn : Txn) (hq : s.irq = true) :
    (hostStep txn s).irq = false ↔
      (∃ d : Word, d.getLsbD 1 = true ∧ txn = .write 0x0004#16 .four d) ∨
      (s.busy = false ∧ ∃ w : Word, txn = .write 0x0000#16 .four w) ∨
      (∃ d : Word, d.getLsbD 0 = false ∧ txn = .write 0x0010#16 .four d) := by
  obtain ⟨hie, hdone⟩ := (irq_iff s).mp hq
  rw [irq_eq_false_iff, hostStep_ie_eq_iff txn (by simp [hie]), hostStep_done_false_iff txn hdone, or_comm, or_assoc]

/-! ### `irq` over every step -/

/-- `irq` rises exactly by a completion with IE set, or by setting IE while DONE (R251). -/
theorem step_irq_true_iff {s t : State} (h : step s = .next t) (hq : s.irq = false) :
    t.irq = true ↔ (engineNext s ∧ s.inflight ≠ none ∧ s.ie = true) ∨
      (s.done = true ∧ ∃ d : Word, d.getLsbD 0 = true ∧ hostNext (.write 0x0010#16 .four d) s) := by
  rcases step_cases h with ⟨hn, he⟩ | ⟨txn, hn, rfl⟩ | ⟨p, rest, hr, rfl⟩
  · simpa only [hn, engineNext_not_hostNext hn, true_and, and_false, exists_false, or_false] using
      engineStep_irq_true_iff he hq
  · simpa only [hostNext_not_engineNext hn, hostNext_iff_eq hn, false_and, false_or] using
      hostStep_irq_true_iff (s := { s with schedule := s.schedule.tail }) txn hq
  · have hn : resetNext s := ⟨p, rest, hr⟩
    simp [resetStep_irq, resetNext_not_engineNext hn, resetNext_not_hostNext hn]

/-- `irq` falls exactly by reset, by clearing DONE, by an acceptance, or by clearing IE (R251). -/
theorem step_irq_false_iff {s t : State} (h : step s = .next t) (hq : s.irq = true) :
    t.irq = false ↔
      resetNext s ∨ (∃ d : Word, d.getLsbD 1 = true ∧ hostNext (.write 0x0004#16 .four d) s) ∨
      (s.busy = false ∧ ∃ w : Word, hostNext (.write 0x0000#16 .four w) s) ∨
      (∃ d : Word, d.getLsbD 0 = false ∧ hostNext (.write 0x0010#16 .four d) s) := by
  rcases step_cases h with ⟨hn, he⟩ | ⟨txn, hn, rfl⟩ | ⟨p, rest, hr, rfl⟩
  · have hkept : t.irq = true := engineStep_irq_of_irq he hq
    simp [hkept, engineNext_not_resetNext hn, engineNext_not_hostNext hn]
  · simpa only [hostNext_not_resetNext hn, hostNext_iff_eq hn, false_or] using
      hostStep_irq_false_iff (s := { s with schedule := s.schedule.tail }) txn hq
  · exact iff_of_true (resetStep_irq p _) (.inl ⟨p, rest, hr⟩)

/-- Settles O49: each step is the engine's, the host's or a reset, and each of them moves `irq` as said above. -/
theorem irqRisesAndFallsAsTheRuleSays : Obligations.IrqRisesAndFallsAsTheRuleSays :=
  fun s _ h => ⟨irq_iff s, step_irq_true_iff h, step_irq_false_iff h⟩

end Sys2Proof.Machine
end

section
/-! PROOFS. The command word once more (30_encoding.md): R91, R94 and R96 as a bijection, and R95 whole. -/

namespace Sys2Proof.Machine

/-- Settles O1: a command's word is a word that decodes to it. -/
theorem decodeOfEncodeGivesTheCommand : Obligations.DecodeOfEncodeGivesTheCommand :=
  fun _ => decode_eq_ok_iff_eq_encode.mpr rfl

/-- Settles O2: a word that decodes to a command is the command's word. -/
theorem legalWordIsTheWordOfItsCommand : Obligations.LegalWordIsTheWordOfItsCommand :=
  fun _ _ h => (decode_eq_ok_iff_eq_encode.mp h).symm

theorem decodeCommand_of_error {w : Word} {e : ErrorCode} (nreg : Nat) (h : decode w = .error e) :
    decodeCommand nreg w = .error e := by
  simp only [decodeCommand, h]

/-- After the ILLEGAL_CMD checks comes REG_RANGE (R95). -/
theorem decodeCommand_of_ok {w : Word} {i : Instr} (nreg : Nat) (h : decode w = .ok i) :
    decodeCommand nreg w = if i.wf nreg then .ok i else .error .regRange := by
  simp only [decodeCommand, h]

/-- Settles O8: decoding fails in both; or the command's registers are out of range in both; or both run the command. -/
theorem engineStepFollowsTheDecodeRule : Obligations.EngineStepFollowsTheDecodeRule := by
  intro s l hl
  cases hd : decode l.cmd with
  | error e => rw [decodeCommand_of_error _ hd, engineStep_of_error hl hd]
  | ok i =>
    rw [decodeCommand_of_ok _ hd, engineStep_of_ok hl hd]
    by_cases hwf : i.wf s.par.nreg
    · rw [if_pos hwf]
    · rw [if_neg hwf, exec_of_not_wf hwf]

/-! ### A step by the event that is next -/

theorem step_of_nil {s : State} (h : s.schedule = []) : step s = engineStep s := by
  simp only [step, h]

theorem step_of_engine {s : State} {rest : List Event} (h : s.schedule = .engine :: rest) :
    step s = engineStep { s with schedule := rest } := by
  simp only [step, h]

theorem step_of_host {s : State} {txn : Txn} {rest : List Event} (h : s.schedule = .host txn :: rest) :
    step s = .next (hostStep txn { s with schedule := rest }) := by
  simp only [step, h]

theorem step_of_reset {s : State} {p : Option Txn} {rest : List Event} (h : s.schedule = .reset p :: rest) :
    step s = .next (resetStep p { s with schedule := rest }) := by
  simp only [step, h]

/-- Settles O7, event by event. -/
theorem stepRunsTheDecodedCommand : Obligations.StepRunsTheDecodedCommand := by
  refine ⟨fun s l i hl hd => ⟨fun h => ?_, fun rest h => ?_⟩, fun s txn rest h => step_of_host h,
    fun s p rest h => step_of_reset h⟩
  · exact (step_of_nil h).trans (engineStep_of_ok hl hd)
  · exact (step_of_engine h).trans (engineStep_of_ok (s := { s with schedule := rest }) hl hd)

end Sys2Proof.Machine
end

section
/-! PROOFS. The invariant (10_state.md R42, R43): it holds after reset, and every step of either agent and reset keep it. -/

namespace Sys2Proof.Machine

/-! ### What the updates of a command keep -/

/-- A choice between two states that meet the invariant meets it. -/
theorem inv_ite {p : Prop} [Decidable p] {t u : State} (ht : p → t.Inv) (hu : ¬ p → u.Inv) :
    (if p then t else u).Inv := by
  split
  · exact ht ‹_›
  · exact hu ‹_›

theorem inv_complete {s : State} (h : s.Inv) : s.complete.Inv := by
  obtain ⟨hpar, hregs, hbuf, -, -, herr, hlen⟩ := h
  exact ⟨hpar, hregs, hbuf, ⟨rfl, nofun⟩, nofun, herr, hlen⟩

/-- Every error has a code from 1 to 9 (R240). -/
theorem errorBits_range (e : ErrorCode) : errorBits e ≠ 0#4 ∧ errorBits e ≤ 9#4 := by
  cases e <;> decide

theorem inv_raise {s : State} (e : ErrorCode) (h : s.Inv) : (s.raise e).Inv := by
  obtain ⟨hpar, hregs, hbuf, -, -, -, hlen⟩ := h
  obtain ⟨hne, hle⟩ := errorBits_range e
  exact ⟨hpar, hregs, hbuf, ⟨rfl, nofun⟩, nofun, ⟨iff_of_true rfl hne, hle⟩, hlen⟩

theorem inv_leaveUncomputed {s : State} (i : Instr) (h : s.Inv) : (s.leaveUncomputed i).Inv :=
  inv_complete (s := s.markUnwritten i) h

theorem inv_setX {s : State} (rd : RegIdx) {v : Nat} (h : s.Inv) (hv : v < 2 ^ s.par.w) : (s.setX rd v).Inv := by
  obtain ⟨hpar, ⟨hlen, hval⟩, hrest⟩ := h
  refine ⟨hpar, ⟨List.length_set.trans hlen, fun r hr => ?_⟩, hrest⟩
  rcases List.mem_or_eq_of_mem_set hr with hr | rfl
  · exact hval r hr
  · exact hv

theorem inv_setC {s : State} (b : Bool) (h : s.Inv) : (s.setC b).Inv := h

/-- A byte output inside the buffer keeps the invariant, its length being at most BUFBYTES (R36, R80). -/
theorem inv_memWrite_setReslen {s : State} {a n : Nat} (v : Nat) (h : s.Inv) (hfit : a + n ≤ s.par.bufBytes) :
    ((s.memWrite a n v).setReslen n).Inv := by
  obtain ⟨hpar, hregs, ⟨hwf, hin⟩, hlatch, hbusy, herr, -⟩ := h
  exact ⟨hpar, hregs, ⟨writeBE_wf a n v hwf, writeBE_bound a n v hin hfit⟩, hlatch, hbusy, herr,
    (Nat.mod_le n _).trans ((Nat.le_add_left n a).trans hfit)⟩

/-! ### The engine's turn -/

theorem modexp_lt (b e : Nat) {n : Nat} (hn : 0 < n) : modexp b e n < n :=
  modexpLoop_lt e _ _ _ (Nat.mod_lt 1 hn)

theorem mont_lt (w a b : Nat) {n : Nat} (hn : 0 < n) : mont w a b n < n := Nat.mod_lt _ hn

/-- Without a borrow the difference is at most the minuend, and with one it is below `2^W` (R153). -/
theorem difference_lt {a b bound : Nat} (ha : a < bound) :
    (if b ≤ a then a - b else a + bound - b) < bound := by
  split <;> omega

/-- A command's rule keeps the invariant: what it writes to a register is below `2^W`, and the bytes it writes are in the
buffer. -/
theorem ruleOf_inv (i : Instr) {s : State} (h : s.Inv) : (ruleOf i s).Inv := by
  have write : ∀ (rd : RegIdx) {v : Nat}, v < s.bound → ((s.setX rd v).complete).Inv := fun rd _ hv =>
    inv_complete (inv_setX rd h hv)
  have hbound : 0 < s.bound := Nat.two_pow_pos _
  have hx : ∀ r, s.x r < s.bound := by
    obtain ⟨-, ⟨-, hval⟩, -⟩ := h
    exact x_lt hval
  cases i with
  | b2i rd =>
    refine inv_ite (fun _ => inv_raise _ h) (fun _ => ?_)
    refine inv_ite (fun _ => ?_) (fun _ => inv_leaveUncomputed _ h)
    exact inv_ite (fun _ => inv_raise _ h) (fun hfit => write rd (not_le.mp hfit))
  | i2bfix rs1 =>
    refine inv_ite (fun _ => inv_raise _ h) (fun hfit => ?_)
    exact inv_ite (fun _ => inv_raise _ h) (fun _ => inv_complete (inv_memWrite_setReslen _ h (not_lt.mp hfit)))
  | i2bmin rs1 =>
    exact inv_ite (fun _ => inv_raise _ h) (fun hfit => inv_complete (inv_memWrite_setReslen _ h (not_lt.mp hfit)))
  | add rd rs1 rs2 => exact inv_setC _ (write rd (Nat.mod_lt _ hbound))
  | sub rd rs1 rs2 => exact inv_setC _ (write rd (difference_lt (hx rs1)))
  | mullo rd rs1 rs2 => exact write rd (Nat.mod_lt _ hbound)
  | mulhi rd rs1 rs2 => exact write rd (Nat.div_lt_of_lt_mul (Nat.mul_lt_mul'' (hx rs1) (hx rs2)))
  | montmul rd rs1 rs2 rs3 =>
    refine inv_ite (fun _ => inv_raise _ h) (fun hodd => ?_)
    exact inv_ite (fun _ => inv_raise _ h) (fun _ => write rd ((mont_lt _ _ _ (by omega)).trans (hx rs3)))
  | modexp rd rs1 rs2 rs3 =>
    exact inv_ite (fun _ => inv_raise _ h)
      (fun hn => write rd ((modexp_lt _ _ (Nat.pos_of_ne_zero hn)).trans (hx rs3)))
  | modexpc rd rs1 rs2 rs3 =>
    exact inv_ite (fun _ => inv_raise _ h) (fun hlt => write rd ((modexp_lt _ _ (by omega)).trans (hx rs3)))

theorem engineStep_inv {s t : State} (hinv : s.Inv) (h : engineStep s = .next t) : t.Inv := by
  rcases engineStep_cases h with ⟨-, rfl⟩ | ⟨_, -, ⟨e, -, rfl⟩ | ⟨i, -, ⟨-, rfl⟩ | ⟨-, -, rfl⟩ | ⟨-, -, rfl⟩⟩⟩
  · exact hinv
  · exact inv_raise e hinv
  · exact inv_raise .regRange hinv
  · exact inv_leaveUncomputed i hinv
  · exact ruleOf_inv i hinv

/-! ### A host transaction and reset -/

/-- An idle block that meets the invariant holds no latch (R43). -/
theorem inflight_of_idle {s : State} (hinv : s.Inv) (hidle : s.busy = false) : s.inflight = none := by
  obtain ⟨-, -, -, ⟨hlatch, -⟩, -⟩ := hinv
  rw [← Option.not_isSome_iff_eq_none, hlatch, hidle]
  exact Bool.false_ne_true

theorem errOk_of_clear {s : State} (herr : s.err = false) (hcode : s.errcode = 0#4) : s.errOk := by
  simp [State.errOk, herr, hcode]

theorem inv_accept {s : State} (w : Word) (h : s.Inv) : (s.accept w).Inv := by
  obtain ⟨hpar, hregs, hbuf, -, -, -, hlen⟩ := h
  refine ⟨hpar, hregs, hbuf, ⟨rfl, ?_⟩, fun _ => ⟨rfl, rfl⟩, errOk_of_clear rfl rfl, hlen⟩
  rintro l ⟨⟩
  rfl

/-- A host transaction keeps the invariant: what it may write while BUSY is not in it but for DONE, which it only clears. -/
theorem hostStep_inv {s : State} (txn : Txn) (hinv : s.Inv) : (hostStep txn s).Inv := by
  rcases hostStep_cases txn s with ⟨_, _, _, _, -, k⟩ | ⟨-, -, -, k⟩ | ⟨w, -, -, k⟩ | ⟨d, -, k⟩ | ⟨d, -, hidle, k⟩ |
    ⟨_, -, k⟩ | ⟨_, a, d, -, -, ha, -, k⟩ | ⟨-, -, -, k⟩ <;> rw [k]
  case inr.inr.inl => exact inv_accept w hinv
  case inr.inr.inr.inl =>
    obtain ⟨hpar, hregs, hbuf, hlatch, hbusy, hrest⟩ := hinv
    refine ⟨hpar, hregs, hbuf, hlatch, fun hb => ?_, hrest⟩
    obtain ⟨hdone, herr⟩ := hbusy hb
    exact ⟨by rw [writeStatus_done, hdone, Bool.false_and], herr⟩
  case inr.inr.inr.inr.inl =>
    have hnone : s.inflight = none := inflight_of_idle hinv hidle
    obtain ⟨hpar, hregs, hbuf, ⟨hlatch, -⟩, hrest⟩ := hinv
    refine ⟨hpar, hregs, hbuf, ⟨hlatch, fun l hl => ?_⟩, hrest⟩
    rw [hnone] at hl
    cases hl
  case inr.inr.inr.inr.inr.inr.inl =>
    obtain ⟨hpar, hregs, ⟨hwf, hin⟩, hrest⟩ := hinv
    exact ⟨hpar, hregs, ⟨write_wf a _ hwf, write_forall (P := fun p => p.1 < s.par.bufBytes) hin ha⟩, hrest⟩
  all_goals exact hinv

/-- With its control fields at their values of R42 and a legal register file, whatever it holds, a state meets the invariant. -/
theorem inv_reset {s : State} {p : Params} (hpar : p.wf)
    (h : s = { State.resetFor p with
      regs := s.regs, schedule := s.schedule, reads := s.reads, draws := s.draws })
    (hregs : s.regsOk) : s.Inv := by
  rw [h] at hregs ⊢
  exact ⟨hpar, hregs, ⟨List.Pairwise.nil, nofun⟩, ⟨rfl, nofun⟩, nofun, errOk_of_clear rfl rfl, Nat.zero_le _⟩

/-- The registers of a reset event hold free values modulo `2^W` (R280, R282; log entry 3). -/
theorem resetStep_inv {s : State} (p : Option Txn) (hinv : s.Inv) : (resetStep p s).Inv := by
  obtain ⟨hpar, -⟩ := hinv
  refine inv_reset hpar rfl ⟨(List.length_map _).trans List.length_range, fun r hr => ?_⟩
  obtain ⟨k, -, rfl⟩ := List.mem_map.mp hr
  exact Nat.mod_lt _ (Nat.two_pow_pos _)

/-- The registers of the initial state hold 0 (log entry 2). -/
theorem resetFor_inv {p : Params} (hpar : p.wf) : (State.resetFor p).Inv := by
  refine inv_reset hpar rfl ⟨List.length_replicate, fun r hr => ?_⟩
  rw [List.eq_of_mem_replicate hr]
  exact Nat.two_pow_pos _

/-- Settles O54: the engine's turn, a host transaction and reset each keep the invariant, which does not speak of the
schedule. -/
theorem everyStepKeepsTheInvariant : Obligations.EveryStepKeepsTheInvariant := by
  intro s t hinv h
  rcases step_cases h with ⟨-, he⟩ | ⟨txn, -, rfl⟩ | ⟨p, rest, -, rfl⟩
  · exact engineStep_inv (s := { s with schedule := s.schedule.tail }) hinv he
  · exact hostStep_inv txn hinv
  · exact resetStep_inv p hinv

/-- Settles O52: the initial state, whose engine has no command to run. -/
theorem resetMeetsTheInvariant : Obligations.ResetMeetsTheInvariant := by
  refine ⟨?_, rfl, rfl, fun _ => resetFor_inv⟩
  rw [State.reset]
  exact resetFor_inv (by decide)

end Sys2Proof.Machine
end

section
/-! PROOFS. The engine's turn as a whole (70_reset_and_hazards.md R290): it always answers a next state, it ends the command in
flight, it alone sets the fault mark, and what it does not look at makes no difference to it (10_state.md R22). -/

namespace Sys2Proof.Machine

/-! ### Every step answers a next state -/

/-- A command is one of the three ends of its frame (R14, R97, R247). -/
theorem exec_next (i : Instr) (s : State) : ∃ t, exec i s = .next t := by
  by_cases hwf : i.wf s.par.nreg
  · by_cases hw : ∀ r ∈ i.sources, s.writtenB r = true
    · exact ⟨_, exec_of_wf hwf hw⟩
    · exact ⟨_, exec_of_unwritten hwf hw⟩
  · exact ⟨_, exec_of_not_wf hwf⟩

theorem engineStep_of_none {s : State} (h : s.inflight = none) : engineStep s = .next s := by
  simp only [engineStep, h]

theorem engineStep_next (s : State) : ∃ t, engineStep s = .next t := by
  cases hl : s.inflight with
  | none => exact ⟨s, engineStep_of_none hl⟩
  | some l =>
    cases hd : decode l.cmd with
    | error e => exact ⟨_, engineStep_of_error hl hd⟩
    | ok i =>
      rw [engineStep_of_ok hl hd]
      exact exec_next i s

/-- Settles O53, event by event. -/
theorem everyStepAnswersANextState : Obligations.EveryStepAnswersANextState := by
  intro s
  cases hs : s.schedule with
  | nil =>
    rw [step_of_nil hs]
    exact engineStep_next s
  | cons e rest =>
    cases e with
    | host txn => exact ⟨_, step_of_host hs⟩
    | reset p => exact ⟨_, step_of_reset hs⟩
    | engine =>
      rw [step_of_engine hs]
      exact engineStep_next _

/-! ### The engine's turn ends the command in flight -/

theorem engineStep_ended {s t : State} (hl : s.inflight ≠ none) (h : engineStep s = .next t) : ended t := by
  rcases engineStep_cases h with ⟨hnone, -⟩ | ⟨_, -, ⟨e, -, rfl⟩ | ⟨i, -, ⟨-, rfl⟩ | ⟨-, -, rfl⟩ | ⟨-, -, rfl⟩⟩⟩
  · exact absurd hnone hl
  · exact ⟨rfl, rfl, rfl⟩
  · exact ⟨rfl, rfl, rfl⟩
  · exact ⟨rfl, rfl, rfl⟩
  · obtain ⟨-, hended⟩ := ruleOf_kept i s
    exact hended

/-- Under the invariant the block is idle after the engine's turn: a command ended, or there was none (R43, R290). -/
theorem engineStep_idle {s t : State} (hinv : s.Inv) (h : engineStep s = .next t) :
    t.busy = false ∧ t.inflight = none := by
  by_cases hl : s.inflight = none
  · obtain ⟨-, -, -, ⟨hlatch, -⟩, -⟩ := hinv
    rw [engineStep_of_none hl] at h
    cases h
    exact ⟨by rw [← hlatch, hl]; rfl, hl⟩
  · obtain ⟨hbusy, -, hnone⟩ := engineStep_ended hl h
    exact ⟨hbusy, hnone⟩

/-- Settles O35: acceptance, discard and read are rows of the register map; an accepted command is in flight, so the engine's
turn ends it. -/
theorem commandIsAcceptedAndCompletes : Obligations.CommandIsAcceptedAndCompletes := by
  intro s w
  rw [hostWrite_cmd]
  refine ⟨fun hidle => ?_, writeCmd_busy w, rfl⟩
  rw [writeCmd_idle w hidle]
  obtain ⟨t, ht⟩ := engineStep_next (s.accept w)
  exact ⟨rfl, t, ht, engineStep_ended (Option.some_ne_none _) ht⟩

/-! ### The fault mark -/

/-- A command's rule changes the fault mark only by leaving the command uncomputed (R22). -/
theorem ruleOf_fault (i : Instr) (s : State) :
    (ruleOf i s).fault = s.fault ∨ (ruleOf i s).fault = s.fault.or (some (.unwrittenRead i)) := by
  rcases ruleOf_cases i s with ⟨_, -, -, k⟩ | ⟨_, -, k⟩ | ⟨_, _, -, -, k⟩ | ⟨_, _, _, -, -, k⟩ | ⟨_, _, _, -, k⟩ |
    ⟨_, _, -, k⟩ <;> rw [k]
  case inr.inl => exact .inr rfl
  all_goals exact .inl rfl

/-- The engine's turn keeps the fault mark, or adds one naming the command in flight (R22, R249). -/
theorem engineStep_fault {s t : State} (h : engineStep s = .next t) :
    t.fault = s.fault ∨ ∃ l i, s.inflight = some l ∧ decode l.cmd = .ok i ∧
      t.fault = s.fault.or (some (.unwrittenRead i)) := by
  rcases engineStep_cases h with ⟨-, rfl⟩ | ⟨l, hl, ⟨e, -, rfl⟩ | ⟨i, hd, ⟨-, rfl⟩ | ⟨-, -, rfl⟩ | ⟨-, -, rfl⟩⟩⟩
  · exact .inl rfl
  · exact .inl rfl
  · exact .inl rfl
  · exact .inr ⟨l, i, hl, hd, rfl⟩
  · exact (ruleOf_fault i s).imp_right fun hmark => ⟨l, i, hl, hd, hmark⟩

/-- Settles O33: a mark added to one already there leaves it, so a mark that changes was not there before. -/
theorem faultMarkIsKeptUntilReset : Obligations.FaultMarkIsKeptUntilReset := by
  intro s t h hreset
  rcases step_cases h with ⟨hn, he⟩ | ⟨txn, -, rfl⟩ | ⟨p, rest, hr, -⟩
  · rcases engineStep_fault he with hkept | ⟨l, i, hl, hd, hmark⟩
    · exact ⟨fun f hf => hkept.trans hf, fun hne => absurd hkept hne⟩
    · change t.fault = s.fault.or _ at hmark
      cases hs : s.fault with
      | some f => simp [hmark, hs]
      | none =>
        rw [hs, Option.none_or] at hmark
        exact ⟨nofun, fun _ => ⟨hn, l, i, hl, hd, hmark⟩⟩
  · obtain ⟨-, -, -, hkept, -⟩ := hostStep_kept txn { s with schedule := s.schedule.tail }
    exact ⟨fun f hf => hkept.trans hf, fun hne => absurd hkept hne⟩
  · exact absurd ⟨p, rest, hr⟩ hreset

/-! ### Unwritten sources and bytes -/

theorem uncomputed_leaveUncomputed (i : Instr) (s : State) : uncomputed i s (s.leaveUncomputed i) :=
  ⟨rfl, ⟨⟨rfl, rfl, rfl⟩, rfl, rfl⟩, fun _ _ => ⟨rfl, rfl⟩, fun _ => rfl, rfl, rfl, rfl, rfl, rfl, rfl, rfl, rfl⟩

/-- Settles O56: a source that was never written stops the command in its frame. -/
theorem unwrittenSourcesAreNotComputed : Obligations.UnwrittenSourcesAreNotComputed := by
  rintro s i hwf ⟨r, hr, hunwritten⟩
  have hsrc : ¬ ∀ r ∈ i.sources, s.writtenB r = true := fun hall => by simp [hall r hr] at hunwritten
  exact ⟨_, exec_of_unwritten hwf hsrc, uncomputed_leaveUncomputed i s⟩

theorem ruleOf_b2i_unwritten {s : State} {r : RegIdx} {a n : Nat} (ha : s.argAddr = a) (hn : s.argLen = n)
    (hfit : a + n ≤ s.par.bufBytes) (hw : ¬ ∀ k < n, s.writtenBuf (a + k) = true) :
    ruleOf (.b2i r) s = s.leaveUncomputed (.b2i r) := by
  subst ha hn
  have hbytes : s.bufWritten s.argAddr s.argLen = false := Bool.eq_false_of_not_eq_true (bufWritten_iff.not.mpr hw)
  simp only [ruleOf, if_neg (not_lt.mpr hfit), hbytes, whenWritten_false]

/-- Settles O10: past its range check, a byte that was never written stops the rule of B2I. -/
theorem b2iOverUnwrittenBytesIsMarked : Obligations.B2iOverUnwrittenBytesIsMarked := by
  rintro s l rd a n - hl hwf ha hn hfit ⟨k, hk, hunwritten⟩
  obtain ⟨haddr, hlen⟩ := argFields_of_inflight hl
  have hw : ¬ ∀ k < n, s.writtenBuf (a + k) = true := fun hall => by simp [hall k hk] at hunwritten
  have hexec := exec_b2i hwf
  rw [ruleOf_b2i_unwritten (haddr.trans ha.symm) (hlen.trans hn.symm) hfit hw] at hexec
  exact ⟨_, hexec, uncomputed_leaveUncomputed (.b2i rd) s⟩

/-! ### What the engine's turn does not look at -/

/-- `f` changes nothing that the engine's turn looks at, the contents of never-written registers not being looked at (R22),
and nothing that a command writes. -/
structure EngineBlind (f : State → State) : Prop where
  par (s : State) : (f s).par = s.par
  inflight (s : State) : (f s).inflight = s.inflight
  arg (s : State) : (f s).arg = s.arg
  buf (s : State) : (f s).buf = s.buf
  draws (s : State) : (f s).draws = s.draws
  writtenB (s : State) (r : RegIdx) : (f s).writtenB r = s.writtenB r
  x_of_written {s : State} {r : RegIdx} : s.writtenB r = true → (f s).x r = s.x r
  setX (s : State) (r : RegIdx) (v : Nat) : f (s.setX r v) = (f s).setX r v
  setC (s : State) (b : Bool) : f (s.setC b) = (f s).setC b
  memWrite (s : State) (a n v : Nat) : f (s.memWrite a n v) = (f s).memWrite a n v
  setReslen (s : State) (n : Nat) : f (s.setReslen n) = (f s).setReslen n
  complete (s : State) : f s.complete = (f s).complete
  raise (s : State) (e : ErrorCode) : f (s.raise e) = (f s).raise e
  markUnwritten (s : State) (i : Instr) : f (s.markUnwritten i) = (f s).markUnwritten i

namespace EngineBlind

variable {f : State → State} (hf : EngineBlind f)

include hf

theorem comm_leaveUncomputed (s : State) (i : Instr) : f (s.leaveUncomputed i) = (f s).leaveUncomputed i := by
  rw [State.leaveUncomputed, hf.complete, hf.markUnwritten, ← State.leaveUncomputed]

theorem comm_whenWritten (s : State) (w : Bool) (i : Instr) (t : State) :
    f (s.whenWritten w i t) = (f s).whenWritten w i (f t) := by
  cases w
  · exact hf.comm_leaveUncomputed s i
  · rfl

/-- The rule of a command whose sources have been written does the same after `f`: what it reads is as before, and what it writes
it writes by operations that `f` commutes with. -/
theorem comm_ruleOf {i : Instr} {s : State} (hsrc : ∀ r ∈ i.sources, s.writtenB r = true) :
    f (ruleOf i s) = ruleOf i (f s) := by
  have hx : ∀ r ∈ i.sources, (f s).x r = s.x r := fun r hr => hf.x_of_written (hsrc r hr)
  have haddr : (f s).argAddr = s.argAddr := argAddr_congr (hf.inflight s) (hf.arg s)
  have hlen : (f s).argLen = s.argLen := argLen_congr (hf.inflight s) (hf.arg s)
  have hbound : (f s).bound = s.bound := bound_congr (hf.par s)
  have hread : ∀ a n, (f s).memRead a n = s.memRead a n := memRead_congr (hf.buf s) (hf.draws s)
  have hbytes : ∀ a n, (f s).bufWritten a n = s.bufWritten a n := bufWritten_congr (hf.buf s)
  have hfar : ∀ a n, (f s).beyondBuffer a n ↔ s.beyondBuffer a n := fun a n => by
    rw [State.beyondBuffer, hf.par]
  cases i <;>
  · simp only [Instr.sources, List.forall_mem_cons] at hx
    simp only [ruleOf, hx, haddr, hlen, hbound, hread, hbytes, hfar, hf.par, apply_ite f, hf.comm_whenWritten, hf.setX,
      hf.setC, hf.memWrite, hf.setReslen, hf.complete, hf.raise]

/-- The engine's turn does the same after `f`. -/
theorem comm_engineStep {s t : State} (h : engineStep s = .next t) : engineStep (f s) = .next (f t) := by
  have hl : (f s).inflight = s.inflight := hf.inflight s
  rcases engineStep_cases h with ⟨hnone, rfl⟩ | ⟨l, hsome, hcommand⟩
  · exact engineStep_of_none (hl.trans hnone)
  · rw [hsome] at hl
    rcases hcommand with ⟨e, hd, rfl⟩ | ⟨i, hd, hframe⟩
    · rw [engineStep_of_error hl hd, hf.raise]
    · rw [engineStep_of_ok hl hd]
      have hpar : (f s).par = s.par := hf.par s
      rw [← hpar] at hframe
      simp only [← hf.writtenB s] at hframe
      rcases hframe with ⟨hwf, rfl⟩ | ⟨hwf, hsrc, rfl⟩ | ⟨hwf, hsrc, rfl⟩
      · rw [exec_of_not_wf hwf, hf.raise]
      · rw [exec_of_unwritten hwf hsrc, hf.comm_leaveUncomputed]
      · rw [exec_of_wf hwf hsrc, hf.comm_ruleOf (by simpa only [hf.writtenB s] using hsrc)]

end EngineBlind

end Sys2Proof.Machine
end

section
/-! PROOFS. Never-written registers cannot be seen (10_state.md R22, U1): blanking them out commutes with the engine's turn and
with every host transaction, and changes nothing that a run shows. -/

namespace Sys2Proof.Machine

/-! ### Blanking out -/

/-- A register as blanking leaves it: its content only if it has been written. -/
def blankReg (r : BReg) : BReg := if r.written then r else { val := 0, written := false }

theorem blankUnwritten_eq (s : State) : s.blankUnwritten = { s with regs := s.regs.map blankReg } := rfl

theorem blankReg_written (r : BReg) : (blankReg r).written = r.written := by
  unfold blankReg
  split
  · rfl
  · exact (Bool.eq_false_of_not_eq_true ‹_›).symm

theorem blankReg_of_written {r : BReg} (h : r.written = true) : blankReg r = r := if_pos h

theorem blankReg_blankReg (r : BReg) : blankReg (blankReg r) = blankReg r := by
  by_cases h : r.written = true
  · rw [blankReg_of_written h, blankReg_of_written h]
  · simp [blankReg, h]

theorem blankUnwritten_blankUnwritten (s : State) : s.blankUnwritten.blankUnwritten = s.blankUnwritten := by
  simp only [blankUnwritten_eq, List.map_map, Function.comp_def, blankReg_blankReg]

/-- The register of index `i` after blanking, the default beyond the file being blank already. -/
theorem getD_map_blankReg (rs : List BReg) (i : Nat) :
    (rs.map blankReg).getD i { val := 0, written := false } = blankReg (rs.getD i { val := 0, written := false }) :=
  List.getD_map rs { val := 0, written := false } blankReg

/-- The engine's turn does not look at the contents of never-written registers (R22). -/
theorem engineBlind_blankUnwritten : EngineBlind State.blankUnwritten where
  par _ := rfl
  inflight _ := rfl
  arg _ := rfl
  buf _ := rfl
  draws _ := rfl
  writtenB s r := by rw [State.writtenB, blankUnwritten_eq, getD_map_blankReg, blankReg_written, State.writtenB]
  x_of_written h := by rw [State.x, blankUnwritten_eq, getD_map_blankReg, blankReg_of_written h, State.x]
  setX s r v := by
    simp only [blankUnwritten_eq, State.setX, List.map_set]
    rfl
  setC _ _ := rfl
  memWrite _ _ _ _ := rfl
  setReslen _ _ := rfl
  complete _ := rfl
  raise _ _ := rfl
  markUnwritten _ _ := rfl

/-! ### The host and reset -/

/-- What a host read returns does not depend on the registers (R21). -/
theorem hostRead_regs (addr : Offset) (size : Size) (s : State) (rs : List BReg) :
    hostRead addr size { s with regs := rs } = hostRead addr size s := rfl

/-- Replacing the registers after a choice is replacing them in each branch. -/
theorem ite_regs (p : Prop) [Decidable p] (t u : State) (rs : List BReg) :
    { (if p then t else u) with regs := rs } = if p then { t with regs := rs } else { u with regs := rs } :=
  apply_ite (fun v : State => { v with regs := rs }) p t u

theorem writeRegister_regs (s : State) (rs : List BReg) (addr : Offset) (d : Word) :
    ({ s with regs := rs } : State).writeRegister addr d = { s.writeRegister addr d with regs := rs } := by
  simp only [State.writeRegister, State.writeCmd, State.writeArg, ite_regs]
  rfl

theorem writeBuf_regs (s : State) (rs : List BReg) (a : Nat) (d : Word) :
    ({ s with regs := rs } : State).writeBuf a d = { s.writeBuf a d with regs := rs } := by
  simp only [State.writeBuf, ite_regs]
  rfl

theorem hostWrite_regs (addr : Offset) (size : Size) (d : Word) (s : State) (rs : List BReg) :
    hostWrite addr size d { s with regs := rs } = { hostWrite addr size d s with regs := rs } := by
  unfold hostWrite
  split
  · exact writeRegister_regs s rs addr d
  · simp only [writeBuf_regs, ite_regs]
  · rfl

theorem afterRead_regs (addr : Offset) (size : Size) (s : State) (rs : List BReg) :
    ({ s with regs := rs } : State).afterRead addr size = { s.afterRead addr size with regs := rs } := by
  unfold State.afterRead
  split
  · simp only [ite_regs]
    rfl
  · rfl

/-- A host transaction makes the same change whatever the registers hold (R21). -/
theorem hostStep_regs (txn : Txn) (s : State) (rs : List BReg) :
    hostStep txn { s with regs := rs } = { hostStep txn s with regs := rs } := by
  cases txn with
  | read addr size =>
    rw [hostStep, hostStep, afterRead_regs, hostRead_regs]
    rfl
  | write addr size d => exact hostWrite_regs addr size d s rs

theorem hostStep_blankUnwritten (txn : Txn) (s : State) :
    hostStep txn s.blankUnwritten = (hostStep txn s).blankUnwritten := by
  obtain ⟨hregs, -⟩ := hostStep_kept txn s
  rw [blankUnwritten_eq, blankUnwritten_eq, hostStep_regs, hregs]

/-- Reset gives the registers contents of its own (R280). -/
theorem resetStep_blankUnwritten (p : Option Txn) (s : State) : resetStep p s.blankUnwritten = resetStep p s := rfl

/-! ### Steps and what they show -/

/-- A step from the blanked state leads where the step leads, but for contents of never-written registers. -/
theorem step_blankUnwritten {s t : State} (h : step s = .next t) :
    ∃ u, step s.blankUnwritten = .next u ∧ u.blankUnwritten = t.blankUnwritten := by
  have hb : s.blankUnwritten.schedule = s.schedule := rfl
  cases hs : s.schedule with
  | nil =>
    rw [hs] at hb
    rw [step_of_nil hs] at h
    exact ⟨_, (step_of_nil hb).trans (engineBlind_blankUnwritten.comm_engineStep h), blankUnwritten_blankUnwritten t⟩
  | cons e rest =>
    rw [hs] at hb
    cases e with
    | engine =>
      rw [step_of_engine hs] at h
      exact ⟨_, (step_of_engine hb).trans (engineBlind_blankUnwritten.comm_engineStep h),
        blankUnwritten_blankUnwritten t⟩
    | host txn =>
      rw [step_of_host hs] at h
      cases h
      exact ⟨_, (step_of_host hb).trans (congrArg _ (hostStep_blankUnwritten txn { s with schedule := rest })),
        blankUnwritten_blankUnwritten _⟩
    | reset p =>
      rw [step_of_reset hs] at h
      cases h
      exact ⟨_, (step_of_reset hb).trans (congrArg _ (resetStep_blankUnwritten p { s with schedule := rest })), rfl⟩

/-- What a run shows of the registers is what blanking leaves of them. -/
theorem observation_blankUnwritten (s : State) : s.blankUnwritten.observation = s.observation := by
  have hshown : ∀ r : BReg, (if (blankReg r).written then some (blankReg r).val else none) =
      if r.written then some r.val else none := by
    intro r
    by_cases hr : r.written = true
    · rw [blankReg_of_written hr]
    · simp [blankReg_written, hr]
  simp only [State.observation, blankUnwritten_eq, List.map_map, Function.comp_def, hshown]
  rfl

theorem fault_blankUnwritten (s : State) : s.blankUnwritten.fault = s.fault := rfl

/-- Settles O34: both steps lead, but for contents of never-written registers, where the step from the one blanked state leads,
and what is shown can be seen there. -/
theorem unwrittenContentsAreNotObservable : Obligations.UnwrittenContentsAreNotObservable := by
  intro s s' t hsame h
  obtain ⟨t', ht'⟩ := everyStepAnswersANextState s'
  obtain ⟨u, hu, hut⟩ := step_blankUnwritten h
  obtain ⟨u', hu', hut'⟩ := step_blankUnwritten ht'
  rw [← hsame, hu] at hu'
  cases hu'
  have hblank : t.blankUnwritten = t'.blankUnwritten := hut.symm.trans hut'
  refine ⟨t', ht', hblank, ?_, ?_⟩
  · rw [← observation_blankUnwritten, hblank, observation_blankUnwritten]
  · rw [← fault_blankUnwritten, hblank, fault_blankUnwritten]

end Sys2Proof.Machine
end

section
/-! PROOFS. What is left of the host's side: its reads (20_memory.md R66, R72), reset and the bus (R280), the agents' separate
effects (70_reset_and_hazards.md R290), and the two orders of an ARG write and a completion (R75). -/

namespace Sys2Proof.Machine

/-! ### Host reads -/

/-- While BUSY a host read depends neither on the registers nor on the buffer (R40, R66). -/
theorem hostRead_of_busy {s : State} (addr : Offset) (size : Size) (rs : List BReg) (m : Memory) (h : s.busy = true) :
    hostRead addr size { s with regs := rs, buf := m } = hostRead addr size s := by
  unfold hostRead
  split
  · rfl
  · simp only [State.hostByte, h, if_true]
  · rfl

/-- Settles O45: only a byte of an idle block's buffer is neither a control register nor free. -/
theorem hostReadsNeitherRegistersNorBusyBuffer : Obligations.HostReadsNeitherRegistersNorBusyBuffer :=
  fun s addr size rs m => ⟨hostRead_regs addr size s rs, hostRead_of_busy addr size rs m⟩

/-- A read at an offset below the buffer window numbers no free values (R64). -/
theorem hostStep_read_register {addr : Offset} (size : Size) (s : State) (h : addr.toNat < 0x1000) :
    hostStep (.read addr size) s = { s with reads := hostRead addr size s :: s.reads } := by
  have hafter : s.afterRead addr size = s := by
    rcases hostRead_cases addr size s with ⟨-, -, -, hs⟩ | ⟨a, -, hr, -⟩ | ⟨-, hs⟩
    · exact hs
    · obtain ⟨haddr, -⟩ := toNat_of_regionOf_window hr
      omega
    · exact hs
  rw [hostStep, hafter, State.observe]

/-- A byte of an idle block that has been written reads the same whatever the number of the next free value (R66). -/
theorem hostByte_draws {s : State} {a : Nat} (hidle : s.busy = false) (hw : s.writtenBuf a = true) (vs : List Word)
    (n : Nat) : ({ s with reads := vs, draws := n } : State).hostByte a = s.hostByte a := by
  have hstored := read_eq_bufByte hw
  rw [hostByte_stored hidle hstored]
  exact hostByte_stored hidle hstored

/-- A read whose value is not open does not depend on what was read before it, nor on the number of the next free value. -/
theorem hostRead_draws {s : State} {addr : Offset} {size : Size}
    (hclosed : ¬ (size = .one ∧ 0x1000 ≤ addr.toNat ∧ addr.toNat < 0x1000 + s.par.bufBytes ∧
      (s.busy = true ∨ s.writtenBuf (addr.toNat - 0x1000) = false))) (vs : List Word) (n : Nat) :
    hostRead addr size { s with reads := vs, draws := n } = hostRead addr size s := by
  unfold hostRead
  split
  · rfl
  · rename_i a hr
    obtain ⟨haddr, -⟩ := toNat_of_regionOf_window hr
    rw [haddr, Nat.add_sub_cancel_left] at hclosed
    dsimp only
    by_cases ha : a < s.par.bufBytes
    · have hopen : ¬ (s.busy = true ∨ s.writtenBuf a = false) := fun ho => hclosed ⟨rfl, by omega, by omega, ho⟩
      obtain ⟨hidle, hw⟩ := not_or.mp hopen
      rw [hostByte_draws (Bool.eq_false_of_not_eq_true hidle) (Bool.eq_true_of_not_eq_false hw)]
    · rw [if_neg ha, if_neg ha]
  · rfl

/-- Settles O57: a read changes the observation and at most the number of the next free value. -/
theorem readsHaveNoSideEffect : Obligations.ReadsHaveNoSideEffect := by
  intro s addr size
  have hread := hostStep_read addr size s
  refine ⟨hread, hostStep_read_register size s, fun addr' size' hclosed => ?_⟩
  obtain ⟨n, hn⟩ := hread
  rw [hn, hostRead_draws hclosed]

/-- Settles O51: the transaction presented shows in the observation alone. -/
theorem resetIgnoresTheBus : Obligations.ResetIgnoresTheBus := fun _ _ _ _ => ⟨rfl, rfl⟩

/-! ### Who writes the results -/

/-- A host transaction changes ERR and ERRCODE only by an acceptance, which clears them (R27, R29). -/
theorem hostStep_err (txn : Txn) (s : State) :
    ((hostStep txn s).err = s.err ∧ (hostStep txn s).errcode = s.errcode) ∨
      (s.busy = false ∧ (hostStep txn s).busy = true ∧ (hostStep txn s).err = false ∧
        (hostStep txn s).errcode = 0#4) := by
  rcases hostStep_cases txn s with ⟨_, _, _, _, -, k⟩ | ⟨-, -, -, k⟩ | ⟨_, -, hidle, k⟩ | ⟨_, -, k⟩ | ⟨_, -, -, k⟩ |
    ⟨_, -, k⟩ | ⟨_, _, _, -, -, -, -, k⟩ | ⟨-, -, -, k⟩ <;> rw [k]
  case inr.inr.inl => exact .inr ⟨hidle, rfl, rfl, rfl⟩
  all_goals exact .inl ⟨rfl, rfl⟩

/-- A host transaction changes the buffer only by a one-byte write to an idle block, and no other byte of it (R65). -/
theorem hostStep_buf (txn : Txn) (s : State) :
    (hostStep txn s).buf = s.buf ∨ (s.busy = false ∧ ∃ (addr : Offset) (d : Word), 0x1000 ≤ addr.toNat ∧
      txn = .write addr .one d ∧ bufKeptOutside (addr.toNat - 0x1000) 1 s (hostStep txn s)) := by
  rcases hostStep_cases txn s with ⟨_, _, _, _, -, k⟩ | ⟨-, -, -, k⟩ | ⟨_, -, -, k⟩ | ⟨_, -, k⟩ | ⟨_, -, -, k⟩ |
    ⟨_, -, k⟩ | ⟨addr, a, d, hw, hr, -, hidle, k⟩ | ⟨-, -, -, k⟩ <;> rw [k]
  case inr.inr.inr.inr.inr.inr.inl =>
    obtain ⟨haddr, -⟩ := toNat_of_regionOf_window hr
    refine .inr ⟨hidle, addr, d, by omega, hw, fun b hb => read_write_other s.buf _ (by omega)⟩
  all_goals exact .inl rfl

/-- Settles O47: the step is a host transaction, and each part says what those do. -/
theorem onlyTheEngineWritesResults : Obligations.OnlyTheEngineWritesResults := by
  intro s t h hengine hreset
  rcases step_cases h with ⟨hn, -⟩ | ⟨txn, hn, rfl⟩ | ⟨p, rest, hr, -⟩
  · exact absurd hn hengine
  · obtain ⟨hregs, hreslen, hc, -⟩ := hostStep_kept txn { s with schedule := s.schedule.tail }
    refine ⟨hregs, hreslen, hc, hostStep_err txn { s with schedule := s.schedule.tail }, ?_⟩
    simpa only [hostNext_iff_eq hn] using hostStep_buf txn { s with schedule := s.schedule.tail }
  · exact absurd ⟨p, rest, hr⟩ hreset

/-! ### An ARG write and a completion -/

/-- The state with another OVR and another schedule. -/
def State.withOvr (ovr : Bool) (schedule : List Event) (s : State) : State := { s with ovr := ovr, schedule := schedule }

/-- The engine's turn looks neither at OVR nor at the events to come (R23, R290). -/
theorem engineBlind_withOvr (ovr : Bool) (schedule : List Event) : EngineBlind (State.withOvr ovr schedule) where
  par _ := rfl
  inflight _ := rfl
  arg _ := rfl
  buf _ := rfl
  draws _ := rfl
  writtenB _ _ := rfl
  x_of_written _ := rfl
  setX _ _ _ := rfl
  setC _ _ := rfl
  memWrite _ _ _ _ := rfl
  setReslen _ _ := rfl
  complete _ := rfl
  raise _ _ := rfl
  markUnwritten _ _ := rfl

theorem core_run_two {s t u : State} (h : step s = .next t) (h' : step t = .next u) :
    Host.Core.run Sys2Proof.core 2 s = .next u := by
  rw [core_run_succ 1 h, core_run_succ 0 h']
  rfl

/-- With the ARG write first, the write is lost and the engine's turn is the one it would have been (R30, R75). -/
theorem run_write_then_engine {s t : State} (d : Word) (rest : List Event) (hbusy : s.busy = true)
    (h : engineStep s = .next t) :
    Host.Core.run Sys2Proof.core 2 { s with schedule := .host (.write 0x0008#16 .four d) :: .engine :: rest } =
      .next (t.withOvr true rest) := by
  refine core_run_two (t := s.withOvr true (.engine :: rest)) ?_ ?_
  · rw [step_of_host rfl, hostStep, hostWrite_arg]
    exact congrArg _ (writeArg_busy d hbusy)
  · rw [step_of_engine rfl]
    exact (engineBlind_withOvr true rest).comm_engineStep (s := s) h

/-- With the engine's turn first, the write comes to an idle block and is taken (R33, R75). -/
theorem run_engine_then_write {s t : State} (d : Word) (rest : List Event) (hidle : t.busy = false)
    (h : engineStep s = .next t) :
    Host.Core.run Sys2Proof.core 2 { s with schedule := .engine :: .host (.write 0x0008#16 .four d) :: rest } =
      .next { t.withOvr s.ovr rest with arg := d } := by
  refine core_run_two (t := t.withOvr s.ovr (.host (.write 0x0008#16 .four d) :: rest)) ?_ ?_
  · rw [step_of_engine rfl]
    exact (engineBlind_withOvr s.ovr (.host (.write 0x0008#16 .four d) :: rest)).comm_engineStep (s := s) h
  · rw [step_of_host rfl, hostStep, hostWrite_arg]
    exact congrArg _ (writeArg_idle d hidle)

/-- Settles O48: both orders come from one and the same turn of the engine. -/
theorem raceOfArgWriteAndCompletion : Obligations.RaceOfArgWriteAndCompletion := by
  intro s d rest hinv hbusy
  obtain ⟨t, ht⟩ := engineStep_next s
  obtain ⟨hidle, -⟩ := engineStep_idle hinv ht
  obtain ⟨⟨-, harg, -⟩, -⟩ := engineStep_kept ht
  exact ⟨_, _, run_write_then_engine d rest hbusy ht, run_engine_then_write d rest hidle ht, rfl, harg, rfl, rfl, rfl,
    rfl, rfl, rfl⟩

end Sys2Proof.Machine
end

section
/-! PROOFS. Host programs and completion (30_encoding.md R100, R101; 70_reset_and_hazards.md R290, R296). -/

namespace Sys2Proof.Machine

/-! ### The expansions (R101) -/

/-- The write of `wbuf` for its value number `i`. -/
def wbufOp (a i : Nat) (v : Word) : HostOp := .txn (.write (BitVec.ofNat 16 (0x1000 + a + i)) .one v)

/-- The read of `rbuf` number `i`. -/
def rbufOp (a i : Nat) : HostOp := .txn (.read (BitVec.ofNat 16 (0x1000 + a + i)) .one)

theorem evWbuf_eq_mapIdx (a : Nat) (vs : List Word) : evWbuf a vs = vs.mapIdx (wbufOp a) := by
  induction vs generalizing a with
  | nil => rfl
  | cons v vs ih =>
    have hshift : wbufOp (a + 1) = fun i => wbufOp a (i + 1) := by
      funext i v
      rw [wbufOp, wbufOp, show 0x1000 + (a + 1) + i = 0x1000 + a + (i + 1) by omega]
    rw [evWbuf, ih, List.mapIdx_cons, hshift]
    rfl

theorem evRbuf_eq_map (a n : Nat) : evRbuf a n = (List.range n).map (rbufOp a) := by
  induction n generalizing a with
  | zero => rfl
  | succ n ih =>
    have hshift : rbufOp (a + 1) = rbufOp a ∘ Nat.succ := by
      funext i
      rw [Function.comp, rbufOp, rbufOp, show 0x1000 + (a + 1) + i = 0x1000 + a + i.succ by omega]
    rw [evRbuf, ih, List.range_succ_eq_map, List.map_cons, List.map_map, hshift]
    rfl

/-- Settles O58: the two expansions over a range of addresses in closed form, the others literally. -/
theorem pseudoInstructionsExpandAsTheTableSays : Obligations.PseudoInstructionsExpandAsTheTableSays := by
  refine ⟨fun _ => rfl, fun a l hd => ?_, fun a vs hvs => ⟨?_, fun i v hv => ?_⟩, fun a n hn => ⟨?_, fun i hi => ?_⟩, rfl,
    rfl, fun _ _ _ => ⟨rfl, rfl⟩, fun _ => rfl⟩
  · exact ⟨BitVec.ofNat 32 (l * 2 ^ 16 + a), Nat.mod_eq_of_lt hd, rfl⟩
  · rw [evWbuf_eq_mapIdx, List.length_mapIdx]
  · have hi : i < vs.length := (List.getElem?_eq_some_iff.mp hv).1
    refine ⟨BitVec.ofNat 16 (0x1000 + a + i), Nat.mod_eq_of_lt (by omega), ?_⟩
    rw [evWbuf_eq_mapIdx, List.getElem?_mapIdx, hv]
    rfl
  · rw [evRbuf_eq_map, List.length_map, List.length_range]
  · refine ⟨BitVec.ofNat 16 (0x1000 + a + i), Nat.mod_eq_of_lt (by omega), ?_⟩
    rw [evRbuf_eq_map, List.getElem?_map, List.getElem?_range hi]
    rfl

/-! ### `wait` -/

/-- Bit 0 of STATUS as a field of R11. -/
theorem status_bit_zero (s : State) : bitsOf (hostRead offStatus .four s) 0 0 = 1 ↔ s.busy = true := by
  rw [← status_busy s, getLsbD_eq_bitsOf, decide_eq_true_iff]

/-- Settles O59: a busy block's bit is 1 and an idle block's is not. -/
theorem waitReadsStatusUntilBusyIsClear : Obligations.WaitReadsStatusUntilBusyIsClear := by
  intro p s
  have hbit := status_bit_zero s
  refine ⟨fun hone => programTurn_wait_busy p (hbit.mp hone), fun hzero => ?_, hbit⟩
  have hidle : ¬ s.busy = true := fun hbusy => one_ne_zero ((hbit.mpr hbusy).symm.trans hzero)
  exact programTurn_wait_idle p (Bool.eq_false_of_not_eq_true hidle)

/-- What is left of a program that is one `wait`, and the block, as any turns leave them. -/
abbrev waiting (p : List HostOp) (s : State) : Prop := (p = evWait ∨ p = []) ∧ s.Inv

/-- A turn of either agent leaves the `wait` going on or over, and keeps the invariant. -/
theorem programTurn_waiting (turn : Turn) {p : List HostOp} {s : State} (h : waiting p s) :
    ∃ q t, programTurn turn p s = .next (q, t) ∧ waiting q t := by
  obtain ⟨hp, hinv⟩ := h
  cases turn with
  | engine =>
    obtain ⟨t, ht⟩ := engineStep_next s
    exact ⟨p, t, programTurn_engine p ht, hp, engineStep_inv hinv ht⟩
  | host =>
    rcases hp with rfl | rfl
    · have hpoll := hostStep_inv (.read offStatus .four) hinv
      cases hb : s.busy with
      | true => exact ⟨_, _, programTurn_wait_busy [] hb, .inl rfl, hpoll⟩
      | false => exact ⟨_, _, programTurn_wait_idle [] hb, .inr rfl, hpoll⟩
    · exact ⟨[], s, rfl, .inr rfl, hinv⟩

theorem runProgram_waiting (turns : List Turn) {p : List HostOp} {s : State} (h : waiting p s) :
    ∃ q t, runProgram turns p s = .next (q, t) ∧ waiting q t := by
  induction turns generalizing p s with
  | nil => exact ⟨p, s, rfl, h⟩
  | cons turn turns ih =>
    obtain ⟨q, t, ht, hq⟩ := programTurn_waiting turn h
    rw [runProgram_cons turns ht]
    exact ih hq

/-- A host turn on an idle block ends the `wait`. -/
theorem programTurn_waiting_idle {p : List HostOp} {s : State} (hp : p = evWait ∨ p = []) (hidle : s.busy = false) :
    ∃ reads, programTurn .host p s = .next ([], { s with reads := reads }) := by
  rcases hp with rfl | rfl
  · exact ⟨_, programTurn_wait_idle [] hidle⟩
  · exact ⟨s.reads, rfl⟩

/-- Settles O60: any turns keep the invariant, the engine's turn leaves the block idle, and the host's read sees it. -/
theorem waitLoopEnds : Obligations.WaitLoopEnds := by
  intro s turns hinv
  obtain ⟨p, t, ht, hp, htinv⟩ := runProgram_waiting turns ⟨.inl rfl, hinv⟩
  obtain ⟨u, hu⟩ := engineStep_next t
  obtain ⟨hidle, hnone⟩ := engineStep_idle htinv hu
  have huinv : u.Inv := engineStep_inv htinv hu
  obtain ⟨reads, hread⟩ := programTurn_waiting_idle hp hidle
  refine ⟨{ u with reads := reads }, ?_, hidle, hnone, huinv⟩
  rw [runProgram_append _ _ ht, runProgram_cons _ (programTurn_engine p hu), runProgram_cons _ hread]
  rfl

/-! ### Completion -/

/-- A step takes its event off the schedule (log entry 7). -/
theorem step_schedule {s t : State} (h : step s = .next t) : t.schedule = s.schedule.tail := by
  rcases step_cases h with ⟨-, he⟩ | ⟨txn, -, rfl⟩ | ⟨p, rest, -, rfl⟩
  · obtain ⟨⟨-, -, -, -, hkept, -⟩, -⟩ := engineStep_kept he
    exact hkept
  · obtain ⟨-, -, -, -, -, hkept⟩ := hostStep_kept txn { s with schedule := s.schedule.tail }
    exact hkept
  · rfl

/-- Settles O55, by induction on the schedule: each event keeps the invariant, and at the end the engine has its turn. -/
theorem everyAcceptedCommandCompletes : Obligations.EveryAcceptedCommandCompletes := by
  intro s hinv
  induction hs : s.schedule generalizing s with
  | nil =>
    obtain ⟨t, ht⟩ := everyStepAnswersANextState s
    have hsched := step_schedule ht
    have hrun := core_run_succ 0 ht
    rw [step_of_nil hs] at ht
    obtain ⟨hidle, hnone⟩ := engineStep_idle hinv ht
    exact ⟨t, hrun, by rw [hsched, hs, List.tail_nil], hidle, hnone⟩
  | cons e rest ih =>
    obtain ⟨t, ht⟩ := everyStepAnswersANextState s
    rw [List.length_cons, core_run_succ _ ht]
    exact ih t (everyStepKeepsTheInvariant s t hinv ht) (by rw [step_schedule ht, hs, List.tail_cons])

end Sys2Proof.Machine
end

section
/-! PROOFS. SUB over the integers (41_adder.md R154). -/

namespace Sys2Proof.Machine

/-- Settles O18: the difference with its borrow is exact, by the two cases of SUB; the rest is that equation over the
integers, the difference being below `2^W`. -/
theorem subIsExactWithItsBorrow : Obligations.SubIsExactWithItsBorrow := by
  intro s rd rs1 rs2 hinv hwf hsrc
  obtain ⟨-, t, ht, hle, hlt, -⟩ := subGivesDifferenceAndBorrow s rd rs1 rs2 hinv hwf hsrc
  obtain ⟨-, ⟨-, hval⟩, -⟩ := hinv
  have ha : s.x rs1 < 2 ^ s.par.w := x_lt hval rs1
  have hb : s.x rs2 < 2 ^ s.par.w := x_lt hval rs2
  have hexact : t.x rd + s.x rs2 = s.x rs1 + t.c.toNat * 2 ^ s.par.w ∧ t.x rd < 2 ^ s.par.w := by
    rcases le_or_gt (s.x rs2) (s.x rs1) with h | h
    · obtain ⟨hx, hc⟩ := hle h
      rw [hx, hc, Bool.toNat_false]
      omega
    · obtain ⟨hx, hc⟩ := hlt h
      rw [hx, hc, Bool.toNat_true]
      omega
  obtain ⟨hsum, hbound⟩ := hexact
  have hsum : (t.x rd : ℤ) + s.x rs2 = s.x rs1 + t.c.toNat * 2 ^ s.par.w := by exact_mod_cast hsum
  refine ⟨t, ht, ?_, by linarith⟩
  have hdiff : (s.x rs1 : ℤ) - s.x rs2 = t.x rd - t.c.toNat * 2 ^ s.par.w := by linarith
  rw [hdiff, Int.sub_mul_emod_self_right]
  exact (Int.emod_eq_of_lt (Int.natCast_nonneg _) (by exact_mod_cast hbound)).symm

end Sys2Proof.Machine
end
